-- ==== Sys2Proof/Word.lean ====
section
/-! DEFINITION. The machine's two word types.

Every value of the machine is unsigned (spec/00_scope.md R6). -/

namespace Sys2Proof

/-- A register, a memory cell, an operand byte, the flags register: 8 bits (spec/00_scope.md R4, R5). -/
abbrev Byte := BitVec 8

/-- The program counter: 9 bits, so that it can hold 256 to 258 without wrapping
(spec/10_state.md R28, R29). -/
abbrev PcWord := BitVec 9

end Sys2Proof
end

