-- ==== Sys2Proof/Syntax.lean ====
section
/-! DEFINITION. The instruction set as syntax: 13 mnemonics, 13 instructions with their operand bytes
(spec/00_scope.md R2, spec/30_encoding.md R80 to R82). -/

namespace Sys2Proof

/-- The 13 mnemonics, in the order of the instruction table (spec/30_encoding.md R88).
The domain of the opcode map OPC. -/
inductive Mnemonic where
  | hlt | ldi | prn | mul | add | push | pop | call | ret | cmp | jmp | jeq | jne
  deriving DecidableEq, Repr

/-- One instruction with its operand bytes. An operand is the whole byte as fetched (spec/30_encoding.md R83): a
register operand of 8 or more is kept, and raises OutOfBounds when the instruction is executed. -/
inductive Instr where
  /-- Halt (R130). -/
  | hlt
  /-- Load immediate: `a` names the destination, `b` is the value (R131). -/
  | ldi (a b : Byte)
  /-- Print register `a` (R132). -/
  | prn (a : Byte)
  /-- Multiply: `a` names destination and first source, `b` the second source (R141). -/
  | mul (a b : Byte)
  /-- Add: `a` names destination and first source, `b` the second source (R142). -/
  | add (a b : Byte)
  /-- Push register `a` (R150). -/
  | push (a : Byte)
  /-- Pop into register `a` (R151). -/
  | pop (a : Byte)
  /-- Call the address in register `a` (R160). -/
  | call (a : Byte)
  /-- Return (R161). -/
  | ret
  /-- Compare registers `a` and `b` (R143). -/
  | cmp (a b : Byte)
  /-- Jump to the address in register `a` (R162). -/
  | jmp (a : Byte)
  /-- Jump if Equal to the address in register `a` (R165). -/
  | jeq (a : Byte)
  /-- Jump if not Equal to the address in register `a` (R166). -/
  | jne (a : Byte)
  deriving DecidableEq, Repr

/-- The instruction's mnemonic. -/
def Instr.mnemonic : Instr → Mnemonic
  | .hlt => .hlt
  | .ldi _ _ => .ldi
  | .prn _ => .prn
  | .mul _ _ => .mul
  | .add _ _ => .add
  | .push _ => .push
  | .pop _ => .pop
  | .call _ => .call
  | .ret => .ret
  | .cmp _ _ => .cmp
  | .jmp _ => .jmp
  | .jeq _ => .jeq
  | .jne _ => .jne

/-- The operand bytes that name registers, in the order in which they are checked
(spec/30_encoding.md R81, R83): `a`, then `b`. The immediate of LDI is not one of them. -/
def Instr.registerOperands : Instr → List Byte
  | .hlt | .ret => []
  | .ldi a _ | .prn a | .push a | .pop a | .call a | .jmp a | .jeq a | .jne a => [a]
  | .mul a b | .add a b | .cmp a b => [a, b]

end Sys2Proof
end

