-- ==== Sys2Proof/Config.lean ====
section
/-! DEFINITION. What is a parameter of the machine and not its state (spec/00_scope.md R4, R12), and the one free
value. -/

namespace Sys2Proof

/-- The opcode map OPC: "an injective function from the 13 mnemonics to byte values" (spec/30_encoding.md R87). The
spec leaves it OPEN; its default, `defaultOpcodes`, is in Decode.lean (PRESUMED, log 1). -/
structure OpcodeMap where
  /-- The opcode byte of a mnemonic. -/
  byte : Mnemonic → Byte
  /-- Two mnemonics never share a byte. -/
  injective : ∀ m n : Mnemonic, byte m = byte n → m = n

/-- STACK_TOP, the reset value of SP (spec/00_scope.md R4, 0xF4). -/
abbrev Config.stackTop : Byte := 0xF4

/-- PC_RESET, the reset value of pc (spec/00_scope.md R4). -/
abbrev Config.pcReset : PcWord := 0

/-- LOAD_BASE, the address of the first loaded byte (spec/00_scope.md R4). -/
abbrev Config.loadBase : Nat := 0

/-- SP_INDEX, the register that is the stack pointer (spec/00_scope.md R4). -/
abbrev Config.spIndex : Fin 8 := 7

/-- DONTCARE (spec/00_scope.md R8): what an operand latch holds when its address, the argument, lies above 255 and
the read is not performed (spec/40_step_cycle.md R112). A free value: nothing can be proved of it, and "no observable
result depends on its value". UNVERIFIED, safe, log 2. -/
opaque Config.dontCare : Nat → Byte

end Sys2Proof
end

