-- ==== Sys2Proof/WellFormed.lean ====
section
/-! DEFINITION. Which instructions are well formed: every register operand names one of the 8 registers
(spec/30_encoding.md R83, R92). "No other operand value is illegal." -/

namespace Sys2Proof

/-- A register operand is legal when it is 0 to 7 (spec/30_encoding.md R83). -/
def legalRegister (v : Byte) : Bool :=
  decide (v.toNat < 8)

/-- Every register operand is legal. An instruction that is not well formed still decodes, and raises OutOfBounds
when it is executed (spec/40_step_cycle.md R115). -/
def Instr.wellFormed (i : Instr) : Bool :=
  i.registerOperands.all legalRegister

end Sys2Proof
end

