-- ==== Sys2Proof/Decode.lean ====
section
/-! DEFINITION. The decoder and, after it, the encoder (spec/30_encoding.md). Decoding looks at the whole opcode byte
and at nothing else to select the instruction (R86); the operand bytes are then taken whole (R83, R84). Register
operands above 7 are not refused here: they fault when the instruction is executed (R92, spec/40_step_cycle.md R110). -/

namespace Sys2Proof

/-- The four instruction formats (spec/30_encoding.md R81). -/
inductive Format where
  /-- Opcode alone. -/
  | z
  /-- Opcode, register byte. -/
  | r
  /-- Opcode, register byte, register byte. -/
  | rr
  /-- Opcode, register byte, immediate byte. -/
  | ri
  deriving DecidableEq, Repr

/-- The format of each instruction (spec/30_encoding.md R81). -/
def Mnemonic.format : Mnemonic → Format
  | .hlt | .ret => .z
  | .prn | .push | .pop | .call | .jmp | .jeq | .jne => .r
  | .mul | .add | .cmp => .rr
  | .ldi => .ri

/-- The length of a format in bytes: one opcode byte and one byte per operand (spec/30_encoding.md R80, R81). -/
def Format.length : Format → Nat
  | .z => 1
  | .r => 2
  | .rr => 3
  | .ri => 3

/-- LEN, the encoded length of each instruction (spec/30_encoding.md R82; RET, JMP, JEQ and JNE by C3). -/
def Mnemonic.length (m : Mnemonic) : Nat :=
  m.format.length

/-- All 13 mnemonics, in the table's order. -/
def Mnemonic.all : List Mnemonic :=
  [.hlt, .ldi, .prn, .mul, .add, .push, .pop, .call, .ret, .cmp, .jmp, .jeq, .jne]

/-- The default opcode values (spec/30_encoding.md R88). PRESUMED: the spec takes every number from general knowledge
of the LS-8 family; log 1. -/
def defaultOpcodeByte : Mnemonic → Byte
  | .hlt => 0x01
  | .ldi => 0x82
  | .prn => 0x47
  | .mul => 0xA2
  | .add => 0xA0
  | .push => 0x45
  | .pop => 0x46
  | .call => 0x50
  | .ret => 0x11
  | .cmp => 0xA7
  | .jmp => 0x54
  | .jeq => 0x55
  | .jne => 0x56

/-- The default values are an injective map, as OPC must be (spec/30_encoding.md R87). -/
theorem defaultOpcodeByte_injective (m n : Mnemonic) (h : defaultOpcodeByte m = defaultOpcodeByte n) : m = n := by
  revert h
  cases m <;> cases n <;> decide

/-- The default of the parameter OPC (spec/30_encoding.md R88). -/
def defaultOpcodes : OpcodeMap where
  byte := defaultOpcodeByte
  injective := defaultOpcodeByte_injective

/-- Why bytes are refused. -/
inductive DecodeError where
  /-- The byte is not the opcode of any of the 13 instructions (spec/30_encoding.md R90); the step raises
  InvalidOpcode. -/
  | unknownOpcode (opcode : Byte)
  deriving DecidableEq, Repr

/-- Decode by the whole opcode byte: the mnemonic whose opcode it is, if any (spec/30_encoding.md R86). -/
def mnemonicOf (c : OpcodeMap) (opcode : Byte) : Option Mnemonic :=
  Mnemonic.all.find? fun m => c.byte m == opcode

/-- The instruction with this mnemonic and these operand bytes. An operand byte the format does not have is ignored
(spec/30_encoding.md R85). -/
def instrOf (m : Mnemonic) (a b : Byte) : Instr :=
  match m with
  | .hlt => .hlt
  | .ldi => .ldi a b
  | .prn => .prn a
  | .mul => .mul a b
  | .add => .add a b
  | .push => .push a
  | .pop => .pop a
  | .call => .call a
  | .ret => .ret
  | .cmp => .cmp a b
  | .jmp => .jmp a
  | .jeq => .jeq a
  | .jne => .jne a

/-- The decoder, on the three bytes the fetch latches (spec/40_step_cycle.md R114). Total; an opcode byte outside the
map is refused by name whatever the operand bytes are. -/
def decode (c : OpcodeMap) (opcode a b : Byte) : Except DecodeError Instr :=
  match mnemonicOf c opcode with
  | some m => .ok (instrOf m a b)
  | none => .error (.unknownOpcode opcode)

/-- The bytes of an instruction, lowest address first: opcode, then `a`, then `b` (spec/30_encoding.md R81,
spec/20_memory.md R54). -/
def encode (c : OpcodeMap) (i : Instr) : List Byte :=
  match i with
  | .hlt => [c.byte .hlt]
  | .ldi a b => [c.byte .ldi, a, b]
  | .prn a => [c.byte .prn, a]
  | .mul a b => [c.byte .mul, a, b]
  | .add a b => [c.byte .add, a, b]
  | .push a => [c.byte .push, a]
  | .pop a => [c.byte .pop, a]
  | .call a => [c.byte .call, a]
  | .ret => [c.byte .ret]
  | .cmp a b => [c.byte .cmp, a, b]
  | .jmp a => [c.byte .jmp, a]
  | .jeq a => [c.byte .jeq, a]
  | .jne a => [c.byte .jne, a]

/-- The mnemonic in capitals (spec/30_encoding.md R94). -/
def Mnemonic.text : Mnemonic → String
  | .hlt => "HLT"
  | .ldi => "LDI"
  | .prn => "PRN"
  | .mul => "MUL"
  | .add => "ADD"
  | .push => "PUSH"
  | .pop => "POP"
  | .call => "CALL"
  | .ret => "RET"
  | .cmp => "CMP"
  | .jmp => "JMP"
  | .jeq => "JEQ"
  | .jne => "JNE"

/-- A register as R0 to R7; a byte that names no register has no text (spec/30_encoding.md R94). -/
def registerText (v : Byte) : Option String :=
  ["R0", "R1", "R2", "R3", "R4", "R5", "R6", "R7"][v.toNat]?

/-- How the spec writes an instruction: mnemonic, then the operands in encoding order with a comma between them, the
immediate in decimal (spec/30_encoding.md R94). Only well-formed instructions have a text. -/
def Instr.text (i : Instr) : Option String :=
  let name := i.mnemonic.text
  match i with
  | .hlt | .ret => some name
  | .ldi a b => (registerText a).map fun ra => name ++ " " ++ ra ++ ", " ++ toString b.toNat
  | .prn a | .push a | .pop a | .call a | .jmp a | .jeq a | .jne a => (registerText a).map fun ra => name ++ " " ++ ra
  | .mul a b | .add a b | .cmp a b =>
    (registerText a).bind fun ra => (registerText b).map fun rb => name ++ " " ++ ra ++ ", " ++ rb

/-- Byte `k` of an opcode-table word of `nbits` bits: byte 0 is bits 7:0, and every bit from `nbits` up is 0. -/
def tableByte (nbits w k : Nat) : Byte :=
  BitVec.ofNat 8 (w % 2 ^ nbits / 2 ^ (8 * k))

/-- What the decoder reads from an opcode-table word under the default opcode map. -/
def decodeTableWord (nbits w : Nat) : Option Instr :=
  (decode defaultOpcodes (tableByte nbits w 0) (tableByte nbits w 1) (tableByte nbits w 2)).toOption

end Sys2Proof
end

