-- ==== Sys2Proof/Machine/State.lean ====
section
/-! DEFINITION. The machine's state (spec/10_state.md R20: "the following and nothing else"), the reasons a step can
stop, and the state after reset (spec/70_reset_and_hazards.md R221). -/

namespace Sys2Proof.Machine

/-- The three kinds of fatal error (spec/60_exceptions.md R180). A step that raises one answers a NEXT state whose
`fault` latch holds it (R185); a step asked of a state whose latch already holds it has no successor and answers
`.fault` with the kind, so that the outcome is reported again (spec/40_step_cycle.md R118, log 3). Safe: the machine
stops there too. -/
inductive Fault where
  /-- The byte at `mem[pc]` is no opcode (R181). Raised by the decode part of a step. -/
  | invalidOpcode
  /-- A fetch address, operand byte, register index or return address is out of range (R182). Raised by the fetch, by
  the operand checks of every instruction, and by CALL. -/
  | outOfBounds
  /-- SP would leave 0 to 255 (R183). Raised by PUSH, POP, CALL and RET. -/
  | stackFault
  deriving DecidableEq, Repr

/-- Why the model answers no next state although no fault is held. -/
inductive Refusal where
  /-- An instruction without a meaning; no arm of `exec` answers it, since all 13 have theirs. -/
  | notModelled (mnemonic : String)
  /-- A step asked of a halted machine: "a step request in a terminal state is refused" (spec/40_step_cycle.md R118).
  Raised by `step` alone. Safe: the machine takes no step there either. -/
  | halted
  deriving DecidableEq, Repr

/-- The 256 cells as (address, byte) pairs, in the canonical form `Memory.wf` of Ops.lean: addresses strictly rising,
none listed that holds the reset value 0x00 (spec/20_memory.md R50, R51; log 19). -/
abbrev Memory := List Host.Cell

/-- The complete state (spec/10_state.md R20). The fetch latches are local to a step (R39). -/
structure State where
  /-- `x[0]` to `x[7]`; `x[7]` is SP (R21, R23). -/
  regs : Vector Byte 8
  /-- The program counter (R27 to R30). -/
  pc : PcWord
  /-- The flags register FL: bit 0 E, bit 1 G, bit 2 L (R31). -/
  fl : Byte
  /-- `mem[0]` to `mem[255]` (spec/20_memory.md R50). -/
  mem : Memory
  /-- The halt latch (R36). -/
  halted : Bool
  /-- The fault latch; `none` is the spec's value None (R37). -/
  fault : Option Fault
  /-- The output log, oldest value first (R38). -/
  out : List Byte
  deriving DecidableEq, Repr

/-- The state after reset (spec/70_reset_and_hazards.md R221): every value is stated there. Memory lists nothing, and
every cell reads 0x00. -/
def State.reset : State where
  regs := #v[0, 0, 0, 0, 0, 0, 0, Config.stackTop]
  pc := Config.pcReset
  fl := 0x00
  mem := []
  halted := false
  fault := none
  out := []

end Sys2Proof.Machine
end

