-- ==== Sys2Proof/Machine/Ops.lean ====
section
/-! DEFINITION. The named operations over memory, registers and pc, raising a fault, and fetch with decode.
Everything an instruction does is built from these. -/

namespace Sys2Proof.Machine

/-- What a step or a meaning answers. -/
abbrev Result := Host.Outcome State Fault Refusal

/-! ### Memory (spec/20_memory.md) -/

/-- What a cell that nothing is listed for holds: 0x00, its reset value (R51). -/
def Memory.unlisted : Byte := 0x00

/-- The content of cell `a`. -/
def Memory.cell (m : Memory) (a : Nat) : Byte :=
  match m with
  | [] => Memory.unlisted
  | (k, v) :: rest => if k = a then v else Memory.cell rest a

/-- Places a listed cell by rising address. -/
def Memory.insert (m : Memory) (a : Nat) (v : Byte) : Memory :=
  match m with
  | [] => [(a, v)]
  | (k, w) :: rest => if a < k then (a, v) :: (k, w) :: rest else (k, w) :: Memory.insert rest a v

/-- Cell `a` becomes `v` and no other cell changes (spec/00_scope.md R8, `MemWrite`). The unlisted value is not
listed. -/
def Memory.put (m : Memory) (a : Nat) (v : Byte) : Memory :=
  let others := m.filter fun cell => cell.1 != a
  if v = Memory.unlisted then others else Memory.insert others a v

/-- The bounds-checked accessor `read`: nothing outside 0 to 255, "not a silent wrap" (R57). -/
def Memory.read (m : Memory) (a : Nat) : Option Byte :=
  if a < 256 then some (m.cell a) else none

/-- The bounds-checked accessor `write`: nothing is written outside 0 to 255 (R57). -/
def Memory.write (m : Memory) (a : Nat) (v : Byte) : Option Memory :=
  if a < 256 then some (m.put a v) else none

/-- The canonical form from address `lo` up: addresses strictly rising and below 256, no cell listed that holds the
unlisted value. -/
def Memory.wfFrom (lo : Nat) (m : Memory) : Bool :=
  match m with
  | [] => true
  | (k, v) :: rest => decide (lo ≤ k) && decide (k < 256) && decide (v ≠ Memory.unlisted) && Memory.wfFrom (k + 1) rest

/-- The canonical form of memory: equal memories are equal lists. -/
def Memory.wf (m : Memory) : Bool :=
  Memory.wfFrom 0 m

/-- Places bytes at consecutive addresses from `base`; a byte whose address is not in memory is not placed. -/
def Memory.placeBytes (m : Memory) (base : Nat) (bytes : List Byte) : Memory :=
  match bytes with
  | [] => m
  | v :: rest => Memory.placeBytes ((m.write base v).getD m) (base + 1) rest

/-! ### Registers -/

/-- Read of general register `i`; no register has a side effect (spec/10_state.md R21). -/
def State.reg (s : State) (i : Fin 8) : Byte :=
  s.regs[i]

/-- Write of general register `i`; none is hard-wired or protected (spec/10_state.md R21, R23). -/
def State.setReg (s : State) (i : Fin 8) (v : Byte) : State :=
  { s with regs := s.regs.set i v }

/-- SP, another name for `x[7]` (spec/10_state.md R23). -/
def State.sp (s : State) : Byte :=
  s.reg Config.spIndex

/-- Write of SP. -/
def State.setSp (s : State) (v : Byte) : State :=
  s.setReg Config.spIndex v

/-- The register a register operand names: the whole byte, not masked; none for 8 to 255 (spec/30_encoding.md R83). -/
def registerIndex (v : Byte) : Option (Fin 8) :=
  if h : v.toNat < 8 then some ⟨v.toNat, h⟩ else none

/-! ### Data accesses: one byte, at an 8-bit address, so always in range (spec/20_memory.md R54, R57) -/

/-- One byte loaded. -/
def State.load (s : State) (a : Byte) : Byte :=
  s.mem.cell a.toNat

/-- One byte stored. -/
def State.store (s : State) (a v : Byte) : State :=
  { s with mem := s.mem.put a.toNat v }

/-! ### The next-PC multiplexer (spec/40_step_cycle.md R113) -/

/-- `zext_9` (spec/00_scope.md R8). -/
def zext9 (v : Byte) : PcWord :=
  v.setWidth 9

/-- The incrementer: pc + LEN, 9 bits; it is reached with pc + LEN at most 256, so it never wraps. -/
def State.advance (s : State) (len : Nat) : State :=
  { s with pc := s.pc + BitVec.ofNat 9 len }

/-- pc from a register or memory byte, zero-extended. -/
def State.jumpTo (s : State) (target : Byte) : State :=
  { s with pc := zext9 target }

/-! ### The stack-pointer block: exact, detecting -1 and 256 (spec/40_step_cycle.md R122, spec/10_state.md R24) -/

/-- The exact integer `v - 1` where it is a byte. -/
def stepDown (v : Byte) : Option Byte :=
  if v.toNat = 0 then none else some (BitVec.ofNat 8 (v.toNat - 1))

/-- The exact integer `v + 1` where it is a byte. -/
def stepUp (v : Byte) : Option Byte :=
  if v.toNat + 1 > 255 then none else some (BitVec.ofNat 8 (v.toNat + 1))

/-! ### The remaining writes -/

/-- `fl <- v` (spec/00_scope.md R8). -/
def State.setFl (s : State) (v : Byte) : State :=
  { s with fl := v }

/-- `halted <- 1` (spec/10_state.md R36). -/
def State.setHalted (s : State) : State :=
  { s with halted := true }

/-- `out <- out ++ [v]` (spec/10_state.md R38). -/
def State.emit (s : State) (v : Byte) : State :=
  { s with out := s.out ++ [v] }

/-! ### Taking a fault (spec/60_exceptions.md R185) -/

/-- The fault latch takes the kind; pc, registers, flags, memory, output and `halted` keep their values. -/
def State.withFault (s : State) (k : Fault) : State :=
  { s with fault := some k }

/-- `raise K`: the step ends in the state with the latch set. There is no vector, no saved pc and no mode (R184, R185),
and no return from a fault (R189): only reset leaves it. -/
def raise (k : Fault) (s : State) : Result :=
  .next (s.withFault k)

/-- The numeric code of the fault latch (spec/10_state.md R37). -/
def faultCode (f : Option Fault) : BitVec 2 :=
  match f with
  | none => 0
  | some .invalidOpcode => 1
  | some .outOfBounds => 2
  | some .stackFault => 3

/-! ### Terminal states (spec/40_step_cycle.md R118) -/

/-- `halted = 1` or `fault` other than None. -/
def State.terminal (s : State) : Bool :=
  s.halted || s.fault.isSome

/-- What a step answers in a terminal state, which has no successor: the outcome that ended the run, again. -/
def State.stopReport (s : State) : Option Result :=
  match s.fault with
  | some k => some (.fault k)
  | none => if s.halted then some (.refused .halted) else none

/-! ### Fetch and decode (spec/40_step_cycle.md R110, R111, R112, R114) -/

/-- The operand latch for the byte `k` above pc. Above address 255 the read is not performed and the latch holds what
`dontCare` gives (R112). -/
def State.operandLatch (s : State) (dontCare : Nat → Byte) (k : Nat) : Byte :=
  match s.mem.read (s.pc.toNat + k) with
  | some v => v
  | none => dontCare (s.pc.toNat + k)

/-- Fetch, then decode: OutOfBounds when pc is above 255 (R111), InvalidOpcode when the byte there is no opcode (R114),
else the instruction. -/
def State.fetchDecode (s : State) (c : OpcodeMap) (dontCare : Nat → Byte) : Except Fault Instr :=
  match s.mem.read s.pc.toNat with
  | none => .error .outOfBounds
  | some opcode =>
    match decode c opcode (s.operandLatch dontCare 1) (s.operandLatch dontCare 2) with
    | .error (.unknownOpcode _) => .error .invalidOpcode
    | .ok i => .ok i

end Sys2Proof.Machine
end

