-- ==== Sys2Proof/Machine/Flags.lean ====
section
/-! DEFINITION. The ALU's results and the flags register (spec/40_step_cycle.md R121, spec/42_alu.md R144,
spec/10_state.md R31). Arithmetic is exact on the unsigned values and then reduced mod 256; the ALU produces no carry,
overflow, zero or sign. -/

namespace Sys2Proof.Machine

/-- `(p + q) mod 256`. -/
def aluAdd (p q : Byte) : Byte :=
  BitVec.ofNat 8 ((p.toNat + q.toNat) % 256)

/-- `(p * q) mod 256`: the low 8 bits of the exact product. -/
def aluMul (p q : Byte) : Byte :=
  BitVec.ofNat 8 (p.toNat * q.toNat % 256)

/-- The whole of FL after a compare of `p` with `q`, unsigned: E, G when the first is greater, L when it is less; bits
7:3 are 0 (spec/42_alu.md R143; the direction of G and L is the spec's decision D6, log 6). -/
def compareFlags (p q : Byte) : Byte :=
  if p.toNat = q.toNat then 0x01 else if p.toNat > q.toNat then 0x02 else 0x04

/-- E, bit 0 of FL (spec/10_state.md R31): the only flag an instruction reads (R33). -/
def flagE (fl : Byte) : Bool := fl.getLsbD 0

/-- G, bit 1 of FL. -/
def flagG (fl : Byte) : Bool := fl.getLsbD 1

/-- L, bit 2 of FL. -/
def flagL (fl : Byte) : Bool := fl.getLsbD 2

end Sys2Proof.Machine
end

