-- ==== Sys2Proof/Machine/Operands.lean ====
section
/-! DEFINITION. The operand checks, one form per instruction format, in the order of spec/40_step_cycle.md R110 part 3:
the operand bytes lie in memory (R112), register `a` exists, register `b` exists (R115). The rest of the meaning is
reached only when all checks of the format pass, and a check that fails changes nothing but the fault latch. -/

namespace Sys2Proof.Machine

/-- `if pc + LEN - 1 > 255 then raise OutOfBounds` (R112). -/
def needBytes (len : Nat) (s : State) (rest : Result) : Result :=
  if s.pc.toNat + len - 1 > 255 then raise .outOfBounds s else rest

/-- `if the register operand is above 7 then raise OutOfBounds` (R115). -/
def needRegister (v : Byte) (s : State) (rest : Fin 8 → Result) : Result :=
  match registerIndex v with
  | some i => rest i
  | none => raise .outOfBounds s

/-- Format Z: no operand (spec/30_encoding.md R81). -/
def formatZ (s : State) (rest : Result) : Result :=
  needBytes Format.z.length s rest

/-- Format R: one register operand. -/
def formatR (a : Byte) (s : State) (rest : Fin 8 → Result) : Result :=
  needBytes Format.r.length s (needRegister a s rest)

/-- Format RR: two register operands, `a` checked first. -/
def formatRR (a b : Byte) (s : State) (rest : Fin 8 → Fin 8 → Result) : Result :=
  needBytes Format.rr.length s (needRegister a s fun i => needRegister b s fun j => rest i j)

/-- Format RI: a register operand and an immediate, which is not checked (R115). -/
def formatRI (a : Byte) (s : State) (rest : Fin 8 → Result) : Result :=
  needBytes Format.ri.length s (needRegister a s rest)

end Sys2Proof.Machine
end

