-- ==== Sys2Proof/Machine/Alu.lean ====
section
/-! DEFINITION. MUL, ADD, CMP (spec/42_alu.md). Both sources are read before anything is written (R140). -/

namespace Sys2Proof.Machine

/-- MUL (R141). -/
def execMul (a b : Byte) (s : State) : Result :=
  formatRR a b s fun i j => .next ((s.setReg i (aluMul (s.reg i) (s.reg j))).advance 3)

/-- ADD (R142). -/
def execAdd (a b : Byte) (s : State) : Result :=
  formatRR a b s fun i j => .next ((s.setReg i (aluAdd (s.reg i) (s.reg j))).advance 3)

/-- CMP (R143): writes all 8 bits of FL and no register. -/
def execCmp (a b : Byte) (s : State) : Result :=
  formatRR a b s fun i j => .next ((s.setFl (compareFlags (s.reg i) (s.reg j))).advance 3)

end Sys2Proof.Machine
end

