-- ==== Sys2Proof/Machine/Control.lean ====
section
/-! DEFINITION. CALL, RET, JMP, JEQ, JNE (spec/44_control_flow.md). Targets are absolute 8-bit addresses; none is
checked when the transfer is made. -/

namespace Sys2Proof.Machine

/-- CALL (R160): StackFault when SP is 0, then OutOfBounds when the return address pc + 2 is above 255; else SP goes
down, the return address is stored there, and pc takes `x[a]`, read after SP was written. -/
def execCall (a : Byte) (s : State) : Result :=
  formatR a s fun i =>
    match stepDown s.sp with
    | none => raise .stackFault s
    | some sp =>
      if s.pc.toNat + 2 > 255 then raise .outOfBounds s
      else
        let lowered := s.setSp sp
        .next ((lowered.store sp (BitVec.ofNat 8 (s.pc.toNat + 2))).jumpTo (lowered.reg i))

/-- RET (R161): StackFault when SP is 255; else SP goes up and pc takes the byte that was at SP. -/
def execRet (s : State) : Result :=
  formatZ s <|
    match stepUp s.sp with
    | none => raise .stackFault s
    | some sp => .next ((s.setSp sp).jumpTo (s.load s.sp))

/-- JMP (R162). -/
def execJmp (a : Byte) (s : State) : Result :=
  formatR a s fun i => .next (s.jumpTo (s.reg i))

/-- JEQ (R165): taken when E is set; the register index is checked whether or not it is taken (R163). -/
def execJeq (a : Byte) (s : State) : Result :=
  formatR a s fun i => .next (if flagE s.fl then s.jumpTo (s.reg i) else s.advance 2)

/-- JNE (R166): taken when E is clear; the register index is checked whether or not it is taken (R163). -/
def execJne (a : Byte) (s : State) : Result :=
  formatR a s fun i => .next (if flagE s.fl then s.advance 2 else s.jumpTo (s.reg i))

end Sys2Proof.Machine
end

