-- ==== Sys2Proof/Machine/MoveHaltOutput.lean ====
section
/-! DEFINITION. HLT, LDI, PRN (spec/41_move_halt_output.md). -/

namespace Sys2Proof.Machine

/-- HLT (R130): `halted <- 1`, and pc + 1 (the spec's decision D7, log 7). -/
def execHlt (s : State) : Result :=
  formatZ s (.next (s.setHalted.advance 1))

/-- LDI (R131): `x[a] <- b`. Every immediate is stored exactly; `a = 7` loads SP unchecked. -/
def execLdi (a b : Byte) (s : State) : Result :=
  formatRI a s fun i => .next ((s.setReg i b).advance 3)

/-- PRN (R132): `out <- out ++ [x[a]]`. -/
def execPrn (a : Byte) (s : State) : Result :=
  formatR a s fun i => .next ((s.emit (s.reg i)).advance 2)

end Sys2Proof.Machine
end

