-- ==== Sys2Proof/Machine/Stack.lean ====
section
/-! DEFINITION. PUSH, POP (spec/43_stack.md). Statements run in the order of the table row, which decides what an
operand of 7 means (the spec's decision D27, log 18). -/

namespace Sys2Proof.Machine

/-- PUSH (R150): StackFault when SP is 0; else SP goes down, and `x[a]`, read after that write, is stored there. -/
def execPush (a : Byte) (s : State) : Result :=
  formatR a s fun i =>
    match stepDown s.sp with
    | none => raise .stackFault s
    | some sp =>
      let lowered := s.setSp sp
      .next ((lowered.store sp (lowered.reg i)).advance 2)

/-- POP (R151): the byte at SP goes to `x[a]`, then SP goes up; for `a = 7` it is the byte just loaded that goes up.
StackFault when the value SP would take is 256. -/
def execPop (a : Byte) (s : State) : Result :=
  formatR a s fun i =>
    let v := s.load s.sp
    match stepUp (if i = Config.spIndex then v else s.sp) with
    | none => raise .stackFault s
    | some sp => .next (((s.setReg i v).setSp sp).advance 2)

end Sys2Proof.Machine
end

