-- ==== Sys2Proof/Machine/Step.lean ====
section
/-! DEFINITION. One step: the fetch-decode-execute cycle (spec/40_step_cycle.md R110). -/

namespace Sys2Proof.Machine

/-- One step under any opcode map and any value of the don't-care latches. A terminal state has no step and reports its
outcome again (R118); a fetch or decode that raises sets the fault latch and changes nothing else (R111, R114); else the
decoded instruction is executed. -/
def stepWith (c : OpcodeMap) (dontCare : Nat → Byte) (s : State) : Host.Outcome State Fault Refusal :=
  match s.stopReport with
  | some r => r
  | none =>
    match s.fetchDecode c dontCare with
    | .error k => raise k s
    | .ok i => exec i s

/-- One step of the machine, with the default opcode map (spec/30_encoding.md R88, log 1). -/
def step (s : State) : Host.Outcome State Fault Refusal :=
  stepWith defaultOpcodes Config.dontCare s

/-- `s` with an opcode-table word, and zeros above it up to the longest instruction, stored where the next step
fetches: at pc, pc + 1 and pc + 2, as far as these lie in memory. It stands for a load from outside (log 20). -/
def State.withFetchWord (s : State) (nbits w : Nat) : State :=
  { s with mem := s.mem.placeBytes s.pc.toNat [tableByte nbits w 0, tableByte nbits w 1, tableByte nbits w 2] }

end Sys2Proof.Machine
end

