-- ==== Sys2Proof/Machine/Transactions.lean ====
section
/-! DEFINITION. The host interface (spec/70_reset_and_hazards.md R224 to R229): the host acts only between steps and
only through the transactions reset, load, step, run and observe, with the accessors `read` and `write` that R229 puts
beside them, and only in the order of use of R224. A `write` is a move of a machine that is not launched yet only (R229,
D26, log 16). Every definition that steps
takes the opcode map and the don't-care latches, as `stepWith` does: the rules hold for any opcode map
(spec/30_encoding.md R87). -/

namespace Sys2Proof.Machine

/-- What a step reports (spec/40_step_cycle.md R117). -/
inductive StepOutcome where
  /-- `Continue`: completed, and not HLT. -/
  | continued
  /-- `Halted`: the instruction was HLT. -/
  | halted
  /-- The step raised this kind. -/
  | faulted (kind : Fault)
  deriving DecidableEq, Repr

/-- The outcome a state's latches stand for (spec/40_step_cycle.md R117). -/
def State.outcome (s : State) : StepOutcome :=
  match s.fault with
  | some k => .faulted k
  | none => if s.halted then .halted else .continued

/-- Transaction `step` (R227): the state after it and what it reports. A terminal state keeps every value and reports
the outcome that made it terminal. -/
def State.stepTransaction (s : State) (c : OpcodeMap) (dontCare : Nat → Byte) : State × StepOutcome :=
  match stepWith c dontCare s with
  | .next t => (t, t.outcome)
  | .fault _ | .refused _ => (s, s.outcome)

/-- Transaction `run` (R228), of which a caller performs at most `limit` steps (spec/40_step_cycle.md R119: "the caller
may choose to stop calling step() at any point"): the last state, and the report once that state is terminal. -/
def State.runTransaction (s : State) (c : OpcodeMap) (dontCare : Nat → Byte) (limit : Nat) :
    State × Option StepOutcome :=
  if s.terminal then (s, some s.outcome)
  else
    match limit with
    | 0 => (s, none)
    | n + 1 => State.runTransaction (s.stepTransaction c dontCare).1 c dontCare n

/-- The bytes placed at consecutive addresses from LOAD_BASE (R226); refused whole, with nothing written, when they are
more than 256. -/
def State.loadBytes (s : State) (bytes : List Byte) : Option State :=
  if bytes.length ≤ 256 then some { s with mem := s.mem.placeBytes Config.loadBase bytes } else none

/-- How far the host has gone in the order of use: reset, then at most one load, then any number of step or one run
(R224). The model's own, held outside the machine's state (DESIGN CHOICE, log 15). -/
inductive Phase where
  /-- Reset, and nothing since. -/
  | justReset
  /-- Reset, and memory written by the host's accessor `write` (log 16): no longer the reset state. -/
  | written
  /-- Reset and loaded: the launch state (spec/00_scope.md R13). -/
  | launched
  /-- A step has been requested since reset. -/
  | stepped
  /-- The one run has been requested since reset. -/
  | ran
  deriving DecidableEq, Repr

/-- The machine and the host's place in the order of use. -/
structure Session where
  /-- The host's place. -/
  phase : Phase
  /-- The machine's whole state. -/
  machine : State
  deriving DecidableEq, Repr

/-- What the host can do between steps (R224). -/
inductive Transaction where
  /-- R225. -/
  | reset
  /-- R226. -/
  | load (bytes : List Byte)
  /-- R227. -/
  | step
  /-- R228, of at most `limit` steps. -/
  | run (limit : Nat)
  /-- R229: the whole state. -/
  | observe
  /-- R229: the accessor `read`. -/
  | readCell (address : Nat)
  /-- R229: the accessor `write`. -/
  | writeCell (address : Nat) (v : Byte)
  deriving DecidableEq, Repr

/-- What the host is told. -/
inductive Reply where
  /-- The transaction was performed. -/
  | done
  /-- A step's or a finished run's outcome. -/
  | reported (o : StepOutcome)
  /-- A run was stopped by its caller before it ended. -/
  | unfinished
  /-- The whole state, observed. -/
  | state (s : State)
  /-- A cell's content. -/
  | value (v : Byte)
  /-- Refused with OutOfBounds; the fault latch is not set (spec/60_exceptions.md R197). -/
  | outOfBounds
  /-- Outside the order of use of R224, refused: a load that is not the first thing after reset (R226), a write to a
  launched or running machine (R229, D26), a run after a step or a run, a step of a machine left running by its run. -/
  | outOfOrder
  deriving DecidableEq, Repr

/-- What the host is told of a run. -/
def runReply (report : Option StepOutcome) : Reply :=
  match report with
  | some o => .reported o
  | none => .unfinished

/-- One transaction. A refused one changes nothing.

DESIGN CHOICE (log 15): a load that is both over 256 bytes and not first after reset is answered `outOfOrder`; the spec
refuses both (spec/60_exceptions.md R197, R226) and does not say which refusal comes first. DESIGN CHOICE (log 15): in a
terminal state a step request after the run reports the outcome again (spec/40_step_cycle.md R118), though R224 puts no
step after a run. DESIGN CHOICE (log 16): a write inside 0 to 255 before launch is performed, though the order of use of
R224 has no write; a write is checked for its address first, so one outside 0 to 255 is answered `outOfBounds` on a
launched machine too; and a write that is performed ends the time for a load, not for another write, since the machine
is no longer in the reset state of R226. -/
def Session.act (x : Session) (c : OpcodeMap) (dontCare : Nat → Byte) (t : Transaction) : Session × Reply :=
  match t with
  | .reset => (⟨.justReset, State.reset⟩, .done)
  | .load bytes =>
    match x.phase with
    | .justReset =>
      match x.machine.loadBytes bytes with
      | some m => (⟨.launched, m⟩, .done)
      | none => (x, .outOfBounds)
    | .written | .launched | .stepped | .ran => (x, .outOfOrder)
  | .step =>
    match x.phase with
    | .justReset | .written | .launched | .stepped =>
      (⟨.stepped, (x.machine.stepTransaction c dontCare).1⟩, .reported (x.machine.stepTransaction c dontCare).2)
    | .ran => (x, if x.machine.terminal then .reported x.machine.outcome else .outOfOrder)
  | .run limit =>
    match x.phase with
    | .justReset | .written | .launched =>
      (⟨.ran, (x.machine.runTransaction c dontCare limit).1⟩,
        runReply (x.machine.runTransaction c dontCare limit).2)
    | .stepped | .ran => (x, .outOfOrder)
  | .observe => (x, .state x.machine)
  | .readCell address =>
    (x, match x.machine.mem.read address with
      | some v => .value v
      | none => .outOfBounds)
  | .writeCell address v =>
    match x.machine.mem.write address v with
    | none => (x, .outOfBounds)
    | some mem =>
      match x.phase with
      | .justReset | .written => (⟨.written, { x.machine with mem := mem }⟩, .done)
      | .launched | .stepped | .ran => (x, .outOfOrder)

/-- A session right after reset. -/
def Session.start : Session := ⟨.justReset, State.reset⟩

/-- Transactions one after another, replies left out. -/
def Session.actAll (x : Session) (c : OpcodeMap) (dontCare : Nat → Byte) (ts : List Transaction) : Session :=
  match ts with
  | [] => x
  | t :: rest => Session.actAll (x.act c dontCare t).1 c dontCare rest

end Sys2Proof.Machine
end

