-- ==== Sys2Proof/Safety.lean ====
section
/-! DEFINITION. What claims are stated in terms of: the invariant of the machine, the ends of a run, what an
instruction leaves unchanged, and the first fault cause in the spec's order. -/

namespace Sys2Proof.Machine

/-- FL takes exactly four values over a run (spec/10_state.md R34). -/
def legalFlags (fl : Byte) : Bool :=
  fl == 0x00 || fl == 0x01 || fl == 0x02 || fl == 0x04

/-- What holds of every state a run reaches: memory is in canonical form, pc is one of the values R28 of
spec/10_state.md gives it, FL one of the four of R34, and no machine is both halted and faulted. -/
structure State.Inv (s : State) : Prop where
  /-- Memory is in canonical form. -/
  memory : s.mem.wf = true
  /-- pc is 0 to 258. -/
  pc : s.pc.toNat ≤ 258
  /-- FL is 0x00, 0x01, 0x02 or 0x04. -/
  flags : legalFlags s.fl = true
  /-- At most one latch is set. -/
  latches : s.halted = true → s.fault = none

/-- A successful end of a run (spec/70_reset_and_hazards.md R234). -/
def State.succeeded (s : State) : Bool :=
  s.halted && s.fault.isNone

/-- Every register but those listed keeps its value. -/
def SameRegsExcept (written : List (Fin 8)) (s t : State) : Prop :=
  ∀ r : Fin 8, r ∉ written → t.reg r = s.reg r

/-- Every cell reads as before. -/
def SameMemory (s t : State) : Prop :=
  ∀ a : Nat, t.mem.read a = s.mem.read a

/-- Every cell but the one at `stored` reads as before. -/
def SameMemoryExcept (stored : Nat) (s t : State) : Prop :=
  ∀ a : Nat, a ≠ stored → t.mem.read a = s.mem.read a

/-- Both run-status latches keep their values. -/
def SameLatches (s t : State) : Prop :=
  t.halted = s.halted ∧ t.fault = s.fault

/-- Executing `i` at `s` raises `k`: the fault latch takes `k` and nothing else changes (spec/60_exceptions.md R185). -/
def Raises (k : Fault) (i : Instr) (s : State) : Prop :=
  exec i s = .next { s with fault := some k }

/-- The cell at an address, read as the fetch of the instruction at pc reads it. -/
def State.byteAt (s : State) (k : Nat) : Byte :=
  s.mem.cell (s.pc.toNat + k)

/-- The value SP would leave memory for: PUSH and CALL at SP 0, RET and POP (destination other than 7) at SP 255,
`POP R7` of the byte 255 (spec/60_exceptions.md R183). -/
def State.stackLeavesMemory (s : State) (m : Mnemonic) (a : Byte) : Bool :=
  match m with
  | .push | .call => s.sp == 0
  | .ret => s.sp == 255
  | .pop => if a == 7 then s.load s.sp == 255 else s.sp == 255
  | .hlt | .ldi | .prn | .mul | .add | .cmp | .jmp | .jeq | .jne => false

/-- The first cause that holds in the spec's order of priority (spec/60_exceptions.md R187), or none: the instruction
completes. -/
def State.firstCause (s : State) (c : OpcodeMap) : Option Fault :=
  if s.pc.toNat > 255 then some .outOfBounds
  else
    match mnemonicOf c (s.byteAt 0) with
    | none => some .invalidOpcode
    | some m =>
      if s.pc.toNat + m.length - 1 > 255 then some .outOfBounds
      else if m.format ≠ .z ∧ (s.byteAt 1).toNat > 7 then some .outOfBounds
      else if m.format = .rr ∧ (s.byteAt 2).toNat > 7 then some .outOfBounds
      else if s.stackLeavesMemory m (s.byteAt 1) then some .stackFault
      else if m = .call ∧ s.pc.toNat + 2 > 255 then some .outOfBounds
      else none

end Sys2Proof.Machine
end

