-- ==== Sys2Proof/Certificates/Slice0/Obligations.lean ====
section
/-! DEFINITION. The statements about the machine, for the provers. Statements about `exec` hold for every state,
also for one no run reaches, and about `stepWith` for every opcode map `c` and every value `d` of the don't-care
latches; `step` is `stepWith` at the default map. -/

open Sys2Proof Sys2Proof.Machine

/-! ### Reset and the invariant -/

/-- Whatever a session did before, the reset transaction leaves the values of the reset table
(spec/70_reset_and_hazards.md sections 1 and 3). The values of x[7], fl, the latches and the log are the spec's own
decisions D4, D5, D8 and D14 (log 5, 13). -/
def Obligations.ResetLeavesTheResetTable : Prop :=
  ∀ (c : OpcodeMap) (d : Nat → Byte) (x : Session),
    ∃ m : State, x.act c d .reset = (⟨.justReset, m⟩, .done) ∧ m = State.reset ∧
      (∀ r : Fin 8, m.reg r = if r = 7 then 0xF4 else 0x00) ∧ m.pc = 0 ∧ m.fl = 0x00 ∧
      (∀ a : Nat, a < 256 → m.mem.read a = some 0x00) ∧ m.halted = false ∧ m.fault = none ∧ m.out = []

/-- The reset state meets the invariant. That FL is 0x00 at reset is the spec's decision D5 (log 5), and the canonical
form of memory, a part of the invariant, is the model's own (log 19). -/
def Obligations.ResetMeetsInvariant : Prop :=
  State.reset.Inv

/-- Every step keeps the invariant: memory stays in canonical form, pc within 0 to 258, FL one of its four values, and
no state is both halted and faulted (spec/10_state.md sections 3, 4, 6; the ranges of pc and FL are the spec's decisions
D2 and D5, log 4, 5; the form of memory is the model's, log 19). -/
def Obligations.StepKeepsInvariant : Prop :=
  ∀ (c : OpcodeMap) (d : Nat → Byte) (s t : State), s.Inv → stepWith c d s = .next t → t.Inv

/-- Whatever the host does from the start, in whatever order, the machine's state meets the invariant. The session and
its order are the model's (log 15), the ranges of pc and FL and the latches the spec's decisions D2, D5 and D8 (log 3, 4,
5), the form of memory the model's (log 19). -/
def Obligations.EverySessionKeepsInvariant : Prop :=
  ∀ (c : OpcodeMap) (d : Nat → Byte) (ts : List Transaction), (Session.start.actAll c d ts).machine.Inv

/-! ### Encoding -/

/-- Decoding the encoding of any instruction gives it back, for every opcode map, every operand byte and whatever bytes
follow. -/
def Obligations.DecodeOfEncodeIsTheInstruction : Prop :=
  ∀ (c : OpcodeMap) (i : Instr) (filler rest : List Byte) (o a b : Byte),
    encode c i ++ filler = o :: a :: b :: rest → decode c o a b = .ok i

/-- What decodes to an instruction begins with that instruction's encoding. -/
def Obligations.DecodedBytesBeginWithTheEncoding : Prop :=
  ∀ (c : OpcodeMap) (i : Instr) (o a b : Byte), decode c o a b = .ok i → encode c i <+: [o, a, b]

/-- Decoding is by the whole opcode byte, and the operand bytes take no part in selecting the instruction. -/
def Obligations.DecodeComparesTheWholeOpcodeByte : Prop :=
  ∀ (c : OpcodeMap) (o a b : Byte) (m : Mnemonic),
    (∃ i, decode c o a b = .ok i ∧ i.mnemonic = m) ↔ c.byte m = o

/-- Words of every format and family, written out from the default map (PRESUMED, log 1) and the formats
(spec/30_encoding.md sections 1 and 3): `LDI R0, 8`, `MUL R0, R1`, `PRN R0`, `HLT`, `PUSH R2`, `CALL R1`, `RET`,
`JNE R3`, and a byte that is no opcode. -/
def Obligations.DefaultWordsDecode : Prop :=
  decodeTableWord 24 0b00001000_00000000_10000010 = some (.ldi 0 8) ∧
  decodeTableWord 24 0b00000001_00000000_10100010 = some (.mul 0 1) ∧
  decodeTableWord 16 0b00000000_01000111 = some (.prn 0) ∧
  decodeTableWord 8 0b00000001 = some .hlt ∧
  decodeTableWord 16 0b00000010_01000101 = some (.push 2) ∧
  decodeTableWord 16 0b00000001_01010000 = some (.call 1) ∧
  decodeTableWord 8 0b00010001 = some .ret ∧
  decodeTableWord 16 0b00000011_01010110 = some (.jne 3) ∧
  decodeTableWord 8 0b11111111 = none

/-! ### The cycle -/

/-- A step runs the decoded instruction: where the bytes latched at pc decode to `i`, a step from a state that is not
terminal is `exec i` at that state. The instruction itself moves pc; the step adds nothing. -/
def Obligations.StepRunsTheDecodedInstruction : Prop :=
  (∀ (s : State) (o : Byte) (i : Instr), s.terminal = false → s.mem.read s.pc.toNat = some o →
    decode defaultOpcodes o (s.operandLatch Config.dontCare 1) (s.operandLatch Config.dontCare 2) = .ok i →
    step s = exec i s) ∧
  (∀ (c : OpcodeMap) (d : Nat → Byte) (s : State) (o : Byte) (i : Instr), s.terminal = false →
    s.mem.read s.pc.toNat = some o → decode c o (s.operandLatch d 1) (s.operandLatch d 2) = .ok i →
    stepWith c d s = exec i s)

/-- Where memory holds the encoding of `i` from pc on, a step executes `i`, whatever follows it. -/
def Obligations.EncodedBytesAtPcAreExecuted : Prop :=
  ∀ (c : OpcodeMap) (d : Nat → Byte) (s : State) (i : Instr), s.terminal = false →
    (∀ (k : Nat) (v : Byte), (encode c i)[k]? = some v → s.mem.read (s.pc.toNat + k) = some v) →
    stepWith c d s = exec i s

/-- Opcode fetch above address 255 raises OutOfBounds, and nothing else happens. -/
def Obligations.FetchAbove255RaisesOutOfBounds : Prop :=
  ∀ (c : OpcodeMap) (d : Nat → Byte) (s : State), s.terminal = false → 255 < s.pc.toNat →
    stepWith c d s = .next { s with fault := some .outOfBounds }

/-- A step raises InvalidOpcode exactly when pc is in memory and the byte there is the opcode of no mnemonic; the
operand bytes play no part. -/
def Obligations.InvalidOpcodeExactlyForUnknownBytes : Prop :=
  ∀ (c : OpcodeMap) (d : Nat → Byte) (s : State), s.terminal = false →
    (stepWith c d s = .next { s with fault := some .invalidOpcode } ↔
      s.pc.toNat ≤ 255 ∧ ∀ m : Mnemonic, s.mem.read s.pc.toNat ≠ some (c.byte m))

/-- A known instruction with a byte above address 255 raises OutOfBounds and changes nothing else (the spec's decision
D3, log 2). -/
def Obligations.OperandByteAbove255RaisesOutOfBounds : Prop :=
  ∀ (c : OpcodeMap) (d : Nat → Byte) (s : State) (m : Mnemonic), s.terminal = false →
    s.mem.read s.pc.toNat = some (c.byte m) → 255 < s.pc.toNat + m.length - 1 →
    stepWith c d s = .next { s with fault := some .outOfBounds }

/-- No result of a step depends on what a don't-care latch holds (the spec's decision D3, log 2). -/
def Obligations.StepIgnoresDontCareLatches : Prop :=
  ∀ (c : OpcodeMap) (d d' : Nat → Byte) (s : State), stepWith c d s = stepWith c d' s

/-- A register operand above 7, in `a` or in `b`, raises OutOfBounds in every instruction that has one, a conditional
jump that would not be taken included (the spec's decision D22, log 17). -/
def Obligations.RegisterOperandAbove7RaisesOutOfBounds : Prop :=
  ∀ (i : Instr) (s : State), s.pc.toNat + i.mnemonic.length - 1 ≤ 255 →
    (∃ v ∈ i.registerOperands, 7 < v.toNat) → Raises .outOfBounds i s

/-- From a state that is not terminal every step has a next state, and its fault latch holds the first cause in the
spec's order of priority, or none (the order is the spec's decision D10, log 9). -/
def Obligations.StepRaisesTheFirstCause : Prop :=
  ∀ (c : OpcodeMap) (d : Nat → Byte) (s : State), s.terminal = false →
    ∃ t, stepWith c d s = .next t ∧ t.fault = s.firstCause c

/-- A raising step changes the fault latch and nothing else: every fault is precise (the spec's decisions D8 and D11,
log 3, 10). -/
def Obligations.RaisingStepChangesOnlyTheFaultLatch : Prop :=
  ∀ (c : OpcodeMap) (d : Nat → Byte) (s t : State) (k : Fault), s.terminal = false → stepWith c d s = .next t →
    t.fault = some k → t = { s with fault := some k }

/-- A terminal state has no step: a faulted one answers its fault again, a halted one is refused (the spec's decision
D8; the two forms of the answer are the model's, log 3). -/
def Obligations.TerminalStateHasNoStep : Prop :=
  ∀ (c : OpcodeMap) (d : Nat → Byte) (s : State),
    (∀ k, s.fault = some k → stepWith c d s = .fault k) ∧
    (s.fault = none → s.halted = true → stepWith c d s = .refused .halted)

/-- A step ends in exactly one of three ways: `Continue`, when an instruction other than HLT completed, `Halted`, when
HLT completed, or the fault the step raised. -/
def Obligations.StepEndsInOneOfThreeWays : Prop :=
  ∀ (c : OpcodeMap) (d : Nat → Byte) (s : State), s.terminal = false → ∃ t, stepWith c d s = .next t ∧
    ((t.outcome = .continued ∧ t.halted = false ∧ t.fault = none ∧
        ∃ i, s.fetchDecode c d = .ok i ∧ i ≠ .hlt ∧ exec i s = .next t) ∨
     (t.outcome = .halted ∧ t.halted = true ∧ t.fault = none ∧
        s.fetchDecode c d = .ok .hlt ∧ exec .hlt s = .next t) ∨
     (∃ k, t.outcome = .faulted k ∧ t.fault = some k ∧ t = { s with fault := some k }))

/-- pc moves by exactly LEN, with no wrap, or is replaced by a zero-extended byte in a control transfer; so it is at
most 256 after any instruction that completes (the spec's decision D2, log 4). -/
def Obligations.PcAdvancesExactlyOrIsReplaced : Prop :=
  ∀ (i : Instr) (s t : State), s.fault = none → exec i s = .next t → t.fault = none →
    t.pc.toNat ≤ 256 ∧
    (t.pc.toNat = s.pc.toNat + i.mnemonic.length ∨
      ∃ v : Byte, t.pc.toNat = v.toNat ∧
        (i = .ret ∨ ∃ a, i = .call a ∨ i = .jmp a ∨ i = .jeq a ∨ i = .jne a))

/-- A sequential instruction that ends exactly at 255, with register operands 0 to 7 and, for PUSH and POP, an SP that
can move, completes and leaves pc at 256, and the following step raises OutOfBounds at fetch. A conditional jump that is
not taken is sequential too. -/
def Obligations.InstructionEndingAt255ThenFetchFaults : Prop :=
  ∀ (c : OpcodeMap) (d : Nat → Byte) (s : State) (i : Instr), s.terminal = false →
    s.fetchDecode c d = .ok i → i.wellFormed = true → s.stackLeavesMemory i.mnemonic (s.byteAt 1) = false →
    s.pc.toNat + i.mnemonic.length = 256 →
    (i.mnemonic ∈ [.ldi, .prn, .mul, .add, .push, .pop, .cmp] ∨
      (i.mnemonic = .jeq ∧ s.fl.getLsbD 0 = false) ∨ (i.mnemonic = .jne ∧ s.fl.getLsbD 0 = true)) →
    ∃ t, stepWith c d s = .next t ∧ t.fault = none ∧ t.pc.toNat = 256 ∧
      stepWith c d t = .next { t with fault := some .outOfBounds }

/-- A run ends successfully exactly by an HLT fetched from memory and executed, and in failure exactly when the fault
latch is set. -/
def Obligations.RunEndsSuccessfullyExactlyByHlt : Prop :=
  ∀ (c : OpcodeMap) (d : Nat → Byte) (s t : State), s.terminal = false → stepWith c d s = .next t →
    (t.succeeded = true ↔ t.halted = true ∧ t.fault = none) ∧
    (t.succeeded = true ↔ s.pc.toNat ≤ 255 ∧ s.mem.read s.pc.toNat = some (c.byte .hlt)) ∧
    (t.terminal = true ∧ t.succeeded = false ↔ ∃ k, t.fault = some k)

/-! ### HLT, LDI, PRN -/

/-- HLT: its encoding, its fault, and its effect with all it leaves unchanged. That pc moves to pc + 1 is the spec's
decision D7 (log 7). -/
def Obligations.HltHaltsAndAdvancesByOne : Prop :=
  (∀ c : OpcodeMap, encode c .hlt = [c.byte .hlt]) ∧
  (∀ s : State, 255 < s.pc.toNat → Raises .outOfBounds .hlt s) ∧
  (∀ s : State, s.pc.toNat ≤ 255 → ∃ t, exec .hlt s = .next t ∧
    t.halted = true ∧ t.pc.toNat = s.pc.toNat + 1 ∧
    SameRegsExcept [] s t ∧ t.fl = s.fl ∧ SameMemory s t ∧ t.fault = s.fault ∧ t.out = s.out)

/-- LDI: its encoding, its faults, and its effect with all it leaves unchanged, for every destination, SP included. -/
def Obligations.LdiLoadsTheImmediate : Prop :=
  (∀ (c : OpcodeMap) (a b : Byte), encode c (.ldi a b) = [c.byte .ldi, a, b]) ∧
  (∀ (a b : Byte) (s : State), 253 < s.pc.toNat ∨ 7 < a.toNat → Raises .outOfBounds (.ldi a b) s) ∧
  (∀ (a b : Byte) (i : Fin 8) (s : State), s.pc.toNat ≤ 253 → a.toNat = i.val → ∃ t, exec (.ldi a b) s = .next t ∧
    t.reg i = b ∧ t.pc.toNat = s.pc.toNat + 3 ∧
    SameRegsExcept [i] s t ∧ t.fl = s.fl ∧ SameMemory s t ∧ SameLatches s t ∧ t.out = s.out)

/-- PRN: its encoding, its faults, and its effect with all it leaves unchanged. The log as a sequence of bytes is the
spec's decision D14 (log 14). -/
def Obligations.PrnAppendsTheRegister : Prop :=
  (∀ (c : OpcodeMap) (a : Byte), encode c (.prn a) = [c.byte .prn, a]) ∧
  (∀ (a : Byte) (s : State), 254 < s.pc.toNat ∨ 7 < a.toNat → Raises .outOfBounds (.prn a) s) ∧
  (∀ (a : Byte) (i : Fin 8) (s : State), s.pc.toNat ≤ 254 → a.toNat = i.val → ∃ t, exec (.prn a) s = .next t ∧
    t.out = s.out ++ [s.reg i] ∧ t.pc.toNat = s.pc.toNat + 2 ∧
    SameRegsExcept [] s t ∧ t.fl = s.fl ∧ SameMemory s t ∧ SameLatches s t)

/-! ### MUL, ADD, CMP -/

/-- MUL: its encoding, its faults, and its effect with all it leaves unchanged, for every pair of registers, the same
one twice included. -/
def Obligations.MulStoresTheProductMod256 : Prop :=
  (∀ (c : OpcodeMap) (a b : Byte), encode c (.mul a b) = [c.byte .mul, a, b]) ∧
  (∀ (a b : Byte) (s : State), 253 < s.pc.toNat ∨ 7 < a.toNat ∨ 7 < b.toNat → Raises .outOfBounds (.mul a b) s) ∧
  (∀ (a b : Byte) (i j : Fin 8) (s : State), s.pc.toNat ≤ 253 → a.toNat = i.val → b.toNat = j.val →
    ∃ t, exec (.mul a b) s = .next t ∧
      (t.reg i).toNat = (s.reg i).toNat * (s.reg j).toNat % 256 ∧ t.pc.toNat = s.pc.toNat + 3 ∧
      SameRegsExcept [i] s t ∧ t.fl = s.fl ∧ SameMemory s t ∧ SameLatches s t ∧ t.out = s.out)

/-- ADD: its encoding, its faults, and its effect with all it leaves unchanged, for every pair of registers, the same
one twice included. -/
def Obligations.AddStoresTheSumMod256 : Prop :=
  (∀ (c : OpcodeMap) (a b : Byte), encode c (.add a b) = [c.byte .add, a, b]) ∧
  (∀ (a b : Byte) (s : State), 253 < s.pc.toNat ∨ 7 < a.toNat ∨ 7 < b.toNat → Raises .outOfBounds (.add a b) s) ∧
  (∀ (a b : Byte) (i j : Fin 8) (s : State), s.pc.toNat ≤ 253 → a.toNat = i.val → b.toNat = j.val →
    ∃ t, exec (.add a b) s = .next t ∧
      (t.reg i).toNat = ((s.reg i).toNat + (s.reg j).toNat) % 256 ∧ t.pc.toNat = s.pc.toNat + 3 ∧
      SameRegsExcept [i] s t ∧ t.fl = s.fl ∧ SameMemory s t ∧ SameLatches s t ∧ t.out = s.out)

/-- CMP: its encoding, its faults, and its effect with all it leaves unchanged; exactly one of E, G, L is set. Which of
G and L means which is the spec's decision D6, and that bits 7:3 are 0 its decision D5 (log 5, 6). -/
def Obligations.CmpSetsExactlyOneFlag : Prop :=
  (∀ (c : OpcodeMap) (a b : Byte), encode c (.cmp a b) = [c.byte .cmp, a, b]) ∧
  (∀ (a b : Byte) (s : State), 253 < s.pc.toNat ∨ 7 < a.toNat ∨ 7 < b.toNat → Raises .outOfBounds (.cmp a b) s) ∧
  (∀ (a b : Byte) (i j : Fin 8) (s : State), s.pc.toNat ≤ 253 → a.toNat = i.val → b.toNat = j.val →
    ∃ t, exec (.cmp a b) s = .next t ∧
      (flagE t.fl = true ↔ (s.reg i).toNat = (s.reg j).toNat) ∧
      (flagG t.fl = true ↔ (s.reg i).toNat > (s.reg j).toNat) ∧
      (flagL t.fl = true ↔ (s.reg i).toNat < (s.reg j).toNat) ∧
      (t.fl = 0x01 ∨ t.fl = 0x02 ∨ t.fl = 0x04) ∧ t.pc.toNat = s.pc.toNat + 3 ∧
      SameRegsExcept [] s t ∧ SameMemory s t ∧ SameLatches s t ∧ t.out = s.out)

/-! ### PUSH, POP -/

/-- PUSH: its encoding, its faults, and its effect with all it leaves unchanged. The byte stored is the operand register
as it is AFTER SP went down, so `PUSH R7` stores the new SP (the spec's decision D27, log 18). -/
def Obligations.PushLowersSpAndStores : Prop :=
  (∀ (c : OpcodeMap) (a : Byte), encode c (.push a) = [c.byte .push, a]) ∧
  (∀ (a : Byte) (s : State), 254 < s.pc.toNat ∨ 7 < a.toNat → Raises .outOfBounds (.push a) s) ∧
  (∀ (a : Byte) (s : State), s.pc.toNat ≤ 254 → a.toNat ≤ 7 → s.sp.toNat = 0 → Raises .stackFault (.push a) s) ∧
  (∀ (a : Byte) (i : Fin 8) (s : State), s.pc.toNat ≤ 254 → a.toNat = i.val → s.sp.toNat ≠ 0 →
    ∃ t, exec (.push a) s = .next t ∧
      t.sp.toNat = s.sp.toNat - 1 ∧ t.mem.read (s.sp.toNat - 1) = some (t.reg i) ∧ t.pc.toNat = s.pc.toNat + 2 ∧
      SameRegsExcept [7] s t ∧ SameMemoryExcept (s.sp.toNat - 1) s t ∧
      t.fl = s.fl ∧ SameLatches s t ∧ t.out = s.out)

/-- POP: its encoding, its faults, and its effect with all it leaves unchanged. `POP R7` raises the byte just loaded by
one (the spec's decision D27, log 18). -/
def Obligations.PopLoadsAndRaisesSp : Prop :=
  (∀ (c : OpcodeMap) (a : Byte), encode c (.pop a) = [c.byte .pop, a]) ∧
  (∀ (a : Byte) (s : State), 254 < s.pc.toNat ∨ 7 < a.toNat → Raises .outOfBounds (.pop a) s) ∧
  (∀ (a : Byte) (s : State), s.pc.toNat ≤ 254 → a.toNat < 7 → s.sp.toNat = 255 → Raises .stackFault (.pop a) s) ∧
  (∀ (a : Byte) (s : State), s.pc.toNat ≤ 254 → a.toNat = 7 → s.mem.read s.sp.toNat = some 255 →
    Raises .stackFault (.pop a) s) ∧
  (∀ (a v : Byte) (i : Fin 8) (s : State), s.pc.toNat ≤ 254 → a.toNat = i.val → i ≠ 7 → s.sp.toNat ≠ 255 →
    s.mem.read s.sp.toNat = some v →
    ∃ t, exec (.pop a) s = .next t ∧
      t.reg i = v ∧ t.sp.toNat = s.sp.toNat + 1 ∧ t.pc.toNat = s.pc.toNat + 2 ∧
      SameRegsExcept [i, 7] s t ∧ SameMemory s t ∧ t.fl = s.fl ∧ SameLatches s t ∧ t.out = s.out) ∧
  (∀ (a v : Byte) (s : State), s.pc.toNat ≤ 254 → a.toNat = 7 → s.mem.read s.sp.toNat = some v → v ≠ 255 →
    ∃ t, exec (.pop a) s = .next t ∧
      t.sp.toNat = v.toNat + 1 ∧ t.pc.toNat = s.pc.toNat + 2 ∧
      SameRegsExcept [7] s t ∧ SameMemory s t ∧ t.fl = s.fl ∧ SameLatches s t ∧ t.out = s.out)

/-! ### CALL, RET, JMP, JEQ, JNE -/

/-- CALL: its encoding, its faults in their order, and its effect with all it leaves unchanged. The target is the
operand register as it is AFTER SP went down (the spec's decision D27, log 18); a return address of 256 faults (its
decision D12, log 11), after the stack check (its decision D10, log 9). -/
def Obligations.CallPushesTheReturnAddressAndJumps : Prop :=
  (∀ (c : OpcodeMap) (a : Byte), encode c (.call a) = [c.byte .call, a]) ∧
  (∀ (a : Byte) (s : State), 254 < s.pc.toNat ∨ 7 < a.toNat → Raises .outOfBounds (.call a) s) ∧
  (∀ (a : Byte) (s : State), s.pc.toNat ≤ 254 → a.toNat ≤ 7 → s.sp.toNat = 0 → Raises .stackFault (.call a) s) ∧
  (∀ (a : Byte) (s : State), s.pc.toNat = 254 → a.toNat ≤ 7 → s.sp.toNat ≠ 0 → Raises .outOfBounds (.call a) s) ∧
  (∀ (a : Byte) (i : Fin 8) (s : State), s.pc.toNat ≤ 253 → a.toNat = i.val → s.sp.toNat ≠ 0 →
    ∃ t v, exec (.call a) s = .next t ∧
      t.sp.toNat = s.sp.toNat - 1 ∧ t.mem.read (s.sp.toNat - 1) = some v ∧ v.toNat = s.pc.toNat + 2 ∧
      t.pc.toNat = (t.reg i).toNat ∧
      SameRegsExcept [7] s t ∧ SameMemoryExcept (s.sp.toNat - 1) s t ∧
      t.fl = s.fl ∧ SameLatches s t ∧ t.out = s.out)

/-- RET: its encoding, its faults, and its effect with all it leaves unchanged. -/
def Obligations.RetJumpsToThePoppedByte : Prop :=
  (∀ c : OpcodeMap, encode c .ret = [c.byte .ret]) ∧
  (∀ s : State, 255 < s.pc.toNat → Raises .outOfBounds .ret s) ∧
  (∀ s : State, s.pc.toNat ≤ 255 → s.sp.toNat = 255 → Raises .stackFault .ret s) ∧
  (∀ (v : Byte) (s : State), s.pc.toNat ≤ 255 → s.sp.toNat ≠ 255 → s.mem.read s.sp.toNat = some v →
    ∃ t, exec .ret s = .next t ∧
      t.pc.toNat = v.toNat ∧ t.sp.toNat = s.sp.toNat + 1 ∧
      SameRegsExcept [7] s t ∧ SameMemory s t ∧ t.fl = s.fl ∧ SameLatches s t ∧ t.out = s.out)

/-- JMP: its encoding, its faults, and its effect; only pc changes. -/
def Obligations.JmpReplacesPc : Prop :=
  (∀ (c : OpcodeMap) (a : Byte), encode c (.jmp a) = [c.byte .jmp, a]) ∧
  (∀ (a : Byte) (s : State), 254 < s.pc.toNat ∨ 7 < a.toNat → Raises .outOfBounds (.jmp a) s) ∧
  (∀ (a : Byte) (i : Fin 8) (s : State), s.pc.toNat ≤ 254 → a.toNat = i.val →
    ∃ t, exec (.jmp a) s = .next t ∧ t.pc.toNat = (s.reg i).toNat ∧ { t with pc := s.pc } = s)

/-- JEQ: its encoding, its faults, and its effect, taken when bit 0 of FL is 1; only pc changes. That the register index
is checked though the jump is not taken is the spec's decision D22 (log 17). -/
def Obligations.JeqJumpsWhenEqual : Prop :=
  (∀ (c : OpcodeMap) (a : Byte), encode c (.jeq a) = [c.byte .jeq, a]) ∧
  (∀ (a : Byte) (s : State), 254 < s.pc.toNat ∨ 7 < a.toNat → Raises .outOfBounds (.jeq a) s) ∧
  (∀ (a : Byte) (i : Fin 8) (s : State), s.pc.toNat ≤ 254 → a.toNat = i.val →
    ∃ t, exec (.jeq a) s = .next t ∧
      t.pc.toNat = (if s.fl.getLsbD 0 = true then (s.reg i).toNat else s.pc.toNat + 2) ∧ { t with pc := s.pc } = s)

/-- JNE: its encoding, its faults, and its effect, taken when bit 0 of FL is 0; only pc changes. That the register index
is checked though the jump is not taken is the spec's decision D22 (log 17). -/
def Obligations.JneJumpsWhenNotEqual : Prop :=
  (∀ (c : OpcodeMap) (a : Byte), encode c (.jne a) = [c.byte .jne, a]) ∧
  (∀ (a : Byte) (s : State), 254 < s.pc.toNat ∨ 7 < a.toNat → Raises .outOfBounds (.jne a) s) ∧
  (∀ (a : Byte) (i : Fin 8) (s : State), s.pc.toNat ≤ 254 → a.toNat = i.val →
    ∃ t, exec (.jne a) s = .next t ∧
      t.pc.toNat = (if s.fl.getLsbD 0 = false then (s.reg i).toNat else s.pc.toNat + 2) ∧ { t with pc := s.pc } = s)

/-! ### Laws of several instructions -/

/-- After a CMP, and for as long as FL is not written, JEQ is taken exactly when the two registers were equal at the CMP,
and JNE exactly when they were not. -/
def Obligations.ConditionalJumpsFollowTheLastCompare : Prop :=
  ∀ (a b : Byte) (i j : Fin 8) (s : State), s.pc.toNat ≤ 253 → a.toNat = i.val → b.toNat = j.val →
    ∃ t, exec (.cmp a b) s = .next t ∧
      ∀ (e : Byte) (k : Fin 8) (u : State), u.fl = t.fl → u.pc.toNat ≤ 254 → e.toNat = k.val →
        (∃ w, exec (.jeq e) u = .next w ∧
          w.pc.toNat = if s.reg i = s.reg j then (u.reg k).toNat else u.pc.toNat + 2) ∧
        (∃ w, exec (.jne e) u = .next w ∧
          w.pc.toNat = if s.reg i = s.reg j then u.pc.toNat + 2 else (u.reg k).toNat)

/-- `PUSH Rr; POP Rr` in sequence, the PUSH not overwriting the POP: two steps leave every register as it was and the
pushed byte in memory, and pc has advanced by 4. The spec marks the law as derived. -/
def Obligations.PushThenPopRestoresTheRegister : Prop :=
  ∀ (c : OpcodeMap) (d : Nat → Byte) (a : Byte) (r : Fin 8) (s : State),
    s.terminal = false → a.toNat = r.val → r ≠ 7 → s.sp.toNat ≠ 0 →
    s.mem.read s.pc.toNat = some (c.byte .push) → s.mem.read (s.pc.toNat + 1) = some a →
    s.mem.read (s.pc.toNat + 2) = some (c.byte .pop) → s.mem.read (s.pc.toNat + 3) = some a →
    s.sp.toNat ≠ s.pc.toNat + 3 → s.sp.toNat ≠ s.pc.toNat + 4 →
    ∃ t u, stepWith c d s = .next t ∧ stepWith c d t = .next u ∧
      SameRegsExcept [] s u ∧ u.mem.read (s.sp.toNat - 1) = some (s.reg r) ∧
      SameMemoryExcept (s.sp.toNat - 1) s u ∧ u.pc.toNat = s.pc.toNat + 4 ∧
      u.fl = s.fl ∧ SameLatches s u ∧ u.out = s.out

/-- A CALL whose target holds RET, not overwritten by the return address: two steps return pc to the call address plus 2
and SP to its value before. (With operand 7 the target is the cell that the return address overwrites.) -/
def Obligations.CallThenRetReturnsPastTheCall : Prop :=
  ∀ (c : OpcodeMap) (d : Nat → Byte) (a : Byte) (i : Fin 8) (s : State),
    s.terminal = false → s.pc.toNat ≤ 253 → a.toNat = i.val → i ≠ 7 → s.sp.toNat ≠ 0 →
    s.mem.read s.pc.toNat = some (c.byte .call) → s.mem.read (s.pc.toNat + 1) = some a →
    s.mem.read (s.reg i).toNat = some (c.byte .ret) → (s.reg i).toNat ≠ s.sp.toNat - 1 →
    ∃ t u, stepWith c d s = .next t ∧ stepWith c d t = .next u ∧
      u.pc.toNat = s.pc.toNat + 2 ∧ SameRegsExcept [] s u ∧
      SameMemoryExcept (s.sp.toNat - 1) s u ∧ u.fl = s.fl ∧ SameLatches s u ∧ u.out = s.out

/-- A store is what the very next fetch reads: a PUSH that writes the byte after itself makes the next step decode that
byte. The spec marks the rule as derived. -/
def Obligations.NextFetchSeesTheStore : Prop :=
  ∀ (c : OpcodeMap) (d : Nat → Byte) (a : Byte) (i : Fin 8) (m : Mnemonic) (s : State),
    s.terminal = false → a.toNat = i.val → i ≠ 7 → s.sp.toNat = s.pc.toNat + 3 →
    s.mem.read s.pc.toNat = some (c.byte .push) → s.mem.read (s.pc.toNat + 1) = some a → s.reg i = c.byte m →
    ∃ t, stepWith c d s = .next t ∧ t.terminal = false ∧
      stepWith c d t = exec (instrOf m (t.operandLatch d 1) (t.operandLatch d 2)) t

/-- A JMP whose register holds the JMP's own address runs for ever: a run of any length does not end. -/
def Obligations.JumpToItselfNeverEnds : Prop :=
  ∀ (c : OpcodeMap) (d : Nat → Byte) (a : Byte) (i : Fin 8) (s : State), s.terminal = false → a.toNat = i.val →
    s.mem.read s.pc.toNat = some (c.byte .jmp) → s.mem.read (s.pc.toNat + 1) = some a →
    (s.reg i).toNat = s.pc.toNat → ∀ n : Nat, s.runTransaction c d n = (s, none)

/-! ### Rules of the whole machine -/

/-- Which instruction can change what: only CMP changes FL, only PRN the log, only HLT `halted`, only PUSH and CALL
memory, and a register other than the destination of LDI, MUL, ADD or POP changes only if it is SP, in PUSH, POP, CALL
or RET. -/
def Obligations.OnlyTheListedInstructionsWrite : Prop :=
  ∀ (i : Instr) (s t : State), exec i s = .next t →
    (t.fl ≠ s.fl → ∃ a b, i = .cmp a b) ∧
    (t.out ≠ s.out → ∃ a, i = .prn a) ∧
    (t.halted ≠ s.halted → i = .hlt) ∧
    ((∃ a : Nat, t.mem.read a ≠ s.mem.read a) → ∃ a, i = .push a ∨ i = .call a) ∧
    (∀ r : Fin 8, t.reg r ≠ s.reg r →
      (r = 7 ∧ (i = .ret ∨ ∃ a, i = .push a ∨ i = .pop a ∨ i = .call a)) ∨
      (∃ a b : Byte, a.toNat = r.val ∧ (i = .ldi a b ∨ i = .mul a b ∨ i = .add a b ∨ i = .pop a)))

/-- CMP is the only instruction that writes FL, and no instruction moves FL to a register, to memory or to the output:
whatever FL holds, those come out the same. -/
def Obligations.OnlyCmpWritesFlAndNothingCopiesIt : Prop :=
  (∀ (i : Instr) (s t : State), exec i s = .next t → (∀ a b, i ≠ .cmp a b) → t.fl = s.fl) ∧
  (∀ (i : Instr) (v : Byte) (s t u : State), exec i s = .next t → exec i { s with fl := v } = .next u →
    SameRegsExcept [] t u ∧ SameMemory t u ∧ SameLatches t u ∧ u.out = t.out)

/-- No instruction reads G, L or bits 7:3 of FL: with bit 0 kept, every other bit of FL can be changed and all else
comes out the same. -/
def Obligations.NoInstructionReadsGreaterOrLess : Prop :=
  ∀ (i : Instr) (v : Byte) (s t : State), v.getLsbD 0 = s.fl.getLsbD 0 → exec i s = .next t →
    ∃ u, exec i { s with fl := v } = .next u ∧ { u with fl := t.fl } = t

/-- Which accesses reach memory: fetch reads the cells at pc, pc + 1 and pc + 2 only; PUSH and CALL that complete write
one byte at the new SP and read none, so that from any other memory the same byte is written there and all else comes
out the same, and one that faults touches none; POP and RET read one byte, at the old SP, and write none; no other
instruction's effect reads or writes memory. -/
def Obligations.OnlyFetchAndStackReachMemory : Prop :=
  (∀ (c : OpcodeMap) (d : Nat → Byte) (s : State) (m : Memory),
    (∀ k : Nat, k ≤ 2 → m.read (s.pc.toNat + k) = s.mem.read (s.pc.toNat + k)) →
    State.fetchDecode { s with mem := m } c d = s.fetchDecode c d) ∧
  (∀ (i : Instr) (s t : State), exec i s = .next t → i.mnemonic ∈ [.push, .call] → s.fault = none → t.fault = none →
    t.sp.toNat + 1 = s.sp.toNat ∧ SameMemoryExcept t.sp.toNat s t ∧
    ∃ v, t.mem.read t.sp.toNat = some v ∧
      ∀ m : Memory, ∃ m', m.write t.sp.toNat v = some m' ∧ exec i { s with mem := m } = .next { t with mem := m' }) ∧
  (∀ (i : Instr) (m : Memory) (s t : State), exec i s = .next t → i.mnemonic ∈ [.push, .call] → s.fault = none →
    t.fault ≠ none → exec i { s with mem := m } = .next { t with mem := m }) ∧
  (∀ (i : Instr) (m : Memory) (s t : State), exec i s = .next t → i.mnemonic ∈ [.pop, .ret] →
    m.read s.sp.toNat = s.mem.read s.sp.toNat → exec i { s with mem := m } = .next { t with mem := m }) ∧
  (∀ (i : Instr) (m : Memory) (s t : State), exec i s = .next t → i.mnemonic ∉ [.push, .call, .pop, .ret] →
    exec i { s with mem := m } = .next { t with mem := m })

/-- Once a CMP has set one flag, FL is 0x01, 0x02 or 0x04 after every later step (the spec's decisions D5 and D6, log
5, 6). -/
def Obligations.FlagsStayOneOfThreeAfterCompare : Prop :=
  ∀ (c : OpcodeMap) (d : Nat → Byte) (s t : State), stepWith c d s = .next t →
    (s.fl = 0x01 ∨ s.fl = 0x02 ∨ s.fl = 0x04) → (t.fl = 0x01 ∨ t.fl = 0x02 ∨ t.fl = 0x04)

/-- The output log only grows, by one register's value at a time, and no instruction reads it (the log's form is the
spec's decision D14, log 14). -/
def Obligations.OutputLogOnlyGrowsAndIsNeverRead : Prop :=
  (∀ (c : OpcodeMap) (d : Nat → Byte) (s t : State), stepWith c d s = .next t →
    t.out = s.out ∨ ∃ r : Fin 8, t.out = s.out ++ [s.reg r]) ∧
  (∀ (i : Instr) (o : List Byte) (s t : State), exec i s = .next t →
    ∃ u, exec i { s with out := o } = .next u ∧ { u with out := t.out } = t)

/-- StackFault is raised exactly where SP would leave 0 to 255: by PUSH and CALL with SP 0, by RET and by POP into a
register other than 7 with SP 255, and by `POP R7` of the byte 255; LDI, ADD and MUL into SP never raise it. (That the
operand checks come first, and CALL's stack check before its return-address check, is the spec's decision D10, log 9.) -/
def Obligations.StackFaultExactlyWhereSpLeavesMemory : Prop :=
  ∀ (i : Instr) (s t : State), s.fault = none → s.pc.toNat + i.mnemonic.length - 1 ≤ 255 → i.wellFormed = true →
    exec i s = .next t →
    (t.fault = some .stackFault ↔
      ((∃ a, i = .push a ∨ i = .call a) ∧ s.sp.toNat = 0) ∨
      ((i = .ret ∨ ∃ a, i = .pop a ∧ a.toNat ≠ 7) ∧ s.sp.toNat = 255) ∨
      (∃ a, i = .pop a ∧ a.toNat = 7 ∧ s.mem.read s.sp.toNat = some 255))

/-! ### Memory -/

/-- The bounds-checked accessors: nothing is read or written outside 0 to 255, and a write changes exactly the addressed
cell. The last clause, that the canonical form is kept, is about the model's own form of memory (log 19). -/
def Obligations.WriteChangesExactlyTheAddressedCell : Prop :=
  ∀ (m : Memory) (a : Nat) (v : Byte),
    (256 ≤ a → m.read a = none ∧ m.write a v = none) ∧
    (a < 256 → ∃ m', m.write a v = some m' ∧ m'.read a = some v ∧ (∀ b, b ≠ a → m'.read b = m.read b) ∧
      (m.wf = true → m'.wf = true))

/-- Equal memories are equal data: two memories in canonical form that read the same everywhere are the same list (the
form is the model's, log 19). -/
def Obligations.CanonicalMemoriesAreEqualData : Prop :=
  ∀ m m' : Memory, m.wf = true → m'.wf = true → (∀ a : Nat, m.read a = m'.read a) → m = m'

/-! ### The host's transactions -/

/-- The launch state: after reset and one load of at most 256 bytes. The values of x[7], fl, the latches and the log are
the spec's own decisions D4, D5, D8 and D14 (log 3, 5, 13, 14); the session is the model's (log 15). -/
def Obligations.LaunchStateHoldsTheLoadedBytes : Prop :=
  ∀ (c : OpcodeMap) (d : Nat → Byte) (bytes : List Byte), bytes.length ≤ 256 →
    ∃ m : State, (Session.start.act c d (.load bytes)).1.machine = m ∧
      (Session.start.act c d (.load bytes)).2 = .done ∧
      m.pc = 0 ∧ (∀ r : Fin 8, r ≠ 7 → m.reg r = 0) ∧ m.reg 7 = 0xF4 ∧ m.fl = 0 ∧ m.halted = false ∧
      m.fault = none ∧ m.out = [] ∧
      (∀ (i : Nat) (h : i < bytes.length), m.mem.read i = some bytes[i]) ∧
      (∀ i : Nat, bytes.length ≤ i → i ≤ 255 → m.mem.read i = some 0)

/-- A load is performed right after reset when it fits in 256 bytes, and refused with nothing written and no latch set
when it does not. Once a step or a run has been requested, or a load or a write performed, every load is refused and
changes nothing until the next reset, whatever else the host does in between (the spec's decision D16). The host's
place in the order, that a write counts there, and that a late load is answered `outOfOrder` also when it is too long,
are the model's (log 15, 16). -/
def Obligations.LoadOnlyOnceAfterResetAndOnlyIfItFits : Prop :=
  (∀ (c : OpcodeMap) (d : Nat → Byte) (x : Session) (bytes : List Byte), x.phase = .justReset → bytes.length ≤ 256 →
    ∃ m, x.machine.loadBytes bytes = some m ∧ x.act c d (.load bytes) = (⟨.launched, m⟩, .done)) ∧
  (∀ (c : OpcodeMap) (d : Nat → Byte) (x : Session) (bytes : List Byte), x.phase = .justReset → 256 < bytes.length →
    x.act c d (.load bytes) = (x, .outOfBounds)) ∧
  (∀ (c : OpcodeMap) (d : Nat → Byte) (x y : Session) (t : Transaction) (ts : List Transaction) (bytes : List Byte),
    (t = .step ∨ (∃ n, t = .run n) ∨
      ((∃ b, t = .load b) ∨ ∃ a v, t = .writeCell a v) ∧ (x.act c d t).2 = .done) →
    .reset ∉ ts → y = (x.act c d t).1.actAll c d ts → y.act c d (.load bytes) = (y, .outOfOrder)) ∧
  (∀ (c : OpcodeMap) (d : Nat → Byte) (x : Session) (ts : List Transaction) (bytes : List Byte), x.phase ≠ .justReset →
    .reset ∉ ts → (x.actAll c d ts).act c d (.load bytes) = (x.actAll c d ts, .outOfOrder))

/-- Transaction `step`, unless the one run has been requested since reset: from a state that is not terminal it performs
one step and reports its outcome; from a terminal state it changes nothing in the machine and reports the outcome that
made the state terminal. After a run it changes nothing, and is answered by the outcome in a terminal state and refused
in any other. The host's place and the answers after a run are the model's (log 15). -/
def Obligations.StepTransactionReportsTheOutcome : Prop :=
  ∀ (c : OpcodeMap) (d : Nat → Byte) (x : Session),
    (x.phase ≠ .ran → x.machine.terminal = false →
      ∃ t, stepWith c d x.machine = .next t ∧ x.act c d .step = (⟨.stepped, t⟩, .reported t.outcome)) ∧
    (x.phase ≠ .ran → x.machine.terminal = true →
      x.act c d .step = (⟨.stepped, x.machine⟩, .reported x.machine.outcome)) ∧
    (x.phase = .ran → x.machine.terminal = true → x.act c d .step = (x, .reported x.machine.outcome)) ∧
    (x.phase = .ran → x.machine.terminal = false → x.act c d .step = (x, .outOfOrder)) ∧
    (x.machine.terminal = true → x.machine.outcome ≠ .continued)

/-- Transaction `run` of at most `n` steps, where no step or run has been requested since reset, performs the transaction
`step` repeatedly: it reports an outcome exactly when a terminal state is reached within `n` steps, and then stops there;
else it is unfinished, and the machine is where `n` steps bring it. After a step or a run it is refused and changes
nothing. The step limit and the host's place are the model's (log 15). -/
def Obligations.RunStepsUntilTerminal : Prop :=
  (∀ (c : OpcodeMap) (d : Nat → Byte) (n : Nat) (x y : Session) (r : Reply), x.phase ∉ [.stepped, .ran] →
    x.act c d (.run n) = (y, r) →
    y.phase = .ran ∧
    ((∃ o, r = .reported o ∧ y.machine.terminal = true ∧ o = y.machine.outcome ∧
        ∃ k ≤ n, ((fun z : Session => (z.act c d .step).1)^[k] x).machine = y.machine ∧
          ∀ j < k, ((fun z : Session => (z.act c d .step).1)^[j] x).machine.terminal = false) ∨
     (r = .unfinished ∧ y.machine = ((fun z : Session => (z.act c d .step).1)^[n] x).machine ∧
        ∀ j ≤ n, ((fun z : Session => (z.act c d .step).1)^[j] x).machine.terminal = false))) ∧
  (∀ (c : OpcodeMap) (d : Nat → Byte) (n : Nat) (x : Session), x.phase ∈ [.stepped, .ran] →
    x.act c d (.run n) = (x, .outOfOrder))

/-- Observing changes nothing: the host reads the whole state or one cell, and a cell address outside 0 to 255 is
refused with OutOfBounds and sets no latch. -/
def Obligations.ObservingChangesNothing : Prop :=
  ∀ (c : OpcodeMap) (d : Nat → Byte) (x : Session),
    x.act c d .observe = (x, .state x.machine) ∧
    (∀ (a : Nat) (v : Byte), x.machine.mem.read a = some v → x.act c d (.readCell a) = (x, .value v)) ∧
    (∀ a : Nat, 255 < a → x.act c d (.readCell a) = (x, .outOfBounds)) ∧
    (∀ a : Nat, a ≤ 255 → ∃ v, x.machine.mem.read a = some v)

/-- Every transaction of the host keeps the invariant, from every state that meets it, at whatever place the host is.
The session is the model's (log 15), the ranges of pc and FL and the latches the spec's decisions D2, D5 and D8 (log 3,
4, 5), the form of memory the model's (log 19). -/
def Obligations.EveryTransactionKeepsInvariant : Prop :=
  ∀ (c : OpcodeMap) (d : Nat → Byte) (x : Session) (t : Transaction),
    x.machine.Inv → (x.act c d t).1.machine.Inv

/-- The host's accessor `write`: an address outside 0 to 255 is refused with OutOfBounds, sets no latch and changes
nothing; once the machine is launched, by a load, a step or a run, one inside is refused and changes nothing (the spec's
decision D26); before launch one inside is performed and writes exactly the addressed cell. Three points are the model's
(log 16): that a write before launch is performed, since the order of use has no write and D26 only forbids it after
launch; that the address is checked first; and that the host's place is `written` after a write. -/
def Obligations.HostWriteIsBoundsCheckedAndOnlyBeforeTheStart : Prop :=
  ∀ (c : OpcodeMap) (d : Nat → Byte) (x : Session) (a : Nat) (v : Byte),
    (255 < a → x.act c d (.writeCell a v) = (x, .outOfBounds)) ∧
    (a ≤ 255 → x.phase ∈ [.justReset, .written] →
      ∃ m, x.act c d (.writeCell a v) = (⟨.written, { x.machine with mem := m }⟩, .done) ∧
        m.read a = some v ∧ ∀ b : Nat, b ≠ a → m.read b = x.machine.mem.read b) ∧
    (a ≤ 255 → x.phase ∈ [.launched, .stepped, .ran] → x.act c d (.writeCell a v) = (x, .outOfOrder))

/-- The order of use (spec/70_reset_and_hazards.md section 3): after launch nothing but a reset, a step or a run changes
the machine; once a run has been requested, nothing the host does but a reset changes anything; and once a step has been
requested, every run is refused until the next reset. The host's place is the model's (log 15). -/
def Obligations.HostFollowsTheOrderOfUse : Prop :=
  (∀ (c : OpcodeMap) (d : Nat → Byte) (x : Session) (t : Transaction), x.phase ∈ [.launched, .stepped, .ran] →
    (x.act c d t).1.machine ≠ x.machine → t = .reset ∨ t = .step ∨ ∃ n, t = .run n) ∧
  (∀ (c : OpcodeMap) (d : Nat → Byte) (x y : Session) (n : Nat) (ts : List Transaction), x.phase ≠ .stepped →
    y = (x.act c d (.run n)).1 → .reset ∉ ts → y.actAll c d ts = y) ∧
  (∀ (c : OpcodeMap) (d : Nat → Byte) (x y : Session) (n : Nat) (ts : List Transaction), x.phase ≠ .ran →
    .reset ∉ ts → y = (x.act c d .step).1.actAll c d ts → y.act c d (.run n) = (y, .outOfOrder))
end

