-- ==== Sys2Proof/Laws/Memory.lean ====
section
/-! SUPPORT. Read after write, and that every memory operation keeps the canonical form. -/

namespace Sys2Proof.Machine.Memory

theorem cell_filter_same (m : Memory) (a : Nat) : cell (m.filter fun e => e.1 != a) a = unlisted := by
  induction m with
  | nil => rfl
  | cons e rest ih => by_cases h : e.1 = a <;> simp [h, cell, ih]

theorem cell_filter_other (m : Memory) {a b : Nat} (h : b ≠ a) :
    cell (m.filter fun e => e.1 != a) b = cell m b := by
  induction m with
  | nil => rfl
  | cons e rest ih =>
    by_cases he : e.1 = a
    · have hb : e.1 ≠ b := fun hc => h (hc.symm.trans he)
      have hab : a ≠ b := fun hc => h hc.symm
      simp [he, cell, ih, hab]
    · simp [he, cell, ih]

theorem cell_insert (m : Memory) (a b : Nat) (v : Byte) (fresh : ∀ e ∈ m, e.1 ≠ a) :
    cell (insert m a v) b = if b = a then v else cell m b := by
  induction m with
  | nil => simp [insert, cell, eq_comm]
  | cons e rest ih =>
    obtain ⟨k, w⟩ := e
    have hk : k ≠ a := fresh (k, w) (by simp)
    have hrest : ∀ e ∈ rest, e.1 ≠ a := fun e he => fresh e (by simp [he])
    by_cases hlt : a < k
    · simp [insert, hlt, cell, eq_comm]
    · by_cases hb : k = b
      · subst hb; simp [insert, hlt, cell, hk]
      · simp [insert, hlt, cell, hb, ih hrest]

/-- A cell reads as the last write to it, and every other cell as before, whatever the list. -/
theorem cell_put (m : Memory) (a b : Nat) (v : Byte) : cell (put m a v) b = if b = a then v else cell m b := by
  by_cases hv : v = unlisted
  · by_cases hb : b = a
    · subst hb; simp [put, hv, cell_filter_same]
    · simp [put, hv, hb, cell_filter_other m hb]
  · have fresh : ∀ e ∈ m.filter (fun e => e.1 != a), e.1 ≠ a := by
      intro e he; simpa using (List.mem_filter.mp he).2
    by_cases hb : b = a
    · simp [put, hv, cell_insert _ _ _ _ fresh, hb]
    · simp [put, hv, cell_insert _ _ _ _ fresh, hb, cell_filter_other m hb]

@[simp] theorem cell_put_same (m : Memory) (a : Nat) (v : Byte) : cell (put m a v) a = v := by
  simp [cell_put]

theorem cell_put_other (m : Memory) {a b : Nat} (v : Byte) (h : b ≠ a) : cell (put m a v) b = cell m b := by
  simp [cell_put, h]

theorem wfFrom_mono {lo lo' : Nat} {m : Memory} (h : lo' ≤ lo) (hm : wfFrom lo m = true) : wfFrom lo' m = true := by
  cases m with
  | nil => rfl
  | cons e rest =>
    simp only [wfFrom, Bool.and_eq_true, decide_eq_true_eq] at hm ⊢
    exact ⟨⟨⟨Nat.le_trans h hm.1.1.1, hm.1.1.2⟩, hm.1.2⟩, hm.2⟩

theorem wfFrom_filter {lo : Nat} {m : Memory} (a : Nat) (hm : wfFrom lo m = true) :
    wfFrom lo (m.filter fun e => e.1 != a) = true := by
  induction m generalizing lo with
  | nil => rfl
  | cons e rest ih =>
    simp only [wfFrom, Bool.and_eq_true, decide_eq_true_eq] at hm
    by_cases he : e.1 = a
    · simpa [he] using wfFrom_mono (Nat.le_succ_of_le hm.1.1.1) (ih hm.2)
    · simp [he, wfFrom, hm.1.1.1, hm.1.1.2, hm.1.2, ih hm.2]

theorem wfFrom_insert {lo a : Nat} {m : Memory} {v : Byte} (hlo : lo ≤ a) (ha : a < 256) (hv : v ≠ unlisted)
    (fresh : ∀ e ∈ m, e.1 ≠ a) (hm : wfFrom lo m = true) : wfFrom lo (insert m a v) = true := by
  induction m generalizing lo with
  | nil => simp [insert, wfFrom, hlo, ha, hv]
  | cons e rest ih =>
    obtain ⟨k, w⟩ := e
    have hk : k ≠ a := fresh (k, w) (by simp)
    have hrest : ∀ e ∈ rest, e.1 ≠ a := fun e he => fresh e (by simp [he])
    simp only [wfFrom, Bool.and_eq_true, decide_eq_true_eq] at hm
    by_cases hlt : a < k
    · have hak : a + 1 ≤ k := hlt
      simp [insert, hlt, wfFrom, hlo, ha, hv, hak, hm.1.1.2, hm.1.2, hm.2]
    · have hka : k + 1 ≤ a := by omega
      simp [insert, hlt, wfFrom, hm.1.1.1, hm.1.1.2, hm.1.2, ih hka hrest hm.2]

/-- Writing a cell keeps the canonical form. -/
theorem wf_put {m : Memory} {a : Nat} (v : Byte) (ha : a < 256) (hm : wf m = true) : wf (put m a v) = true := by
  by_cases hv : v = unlisted
  · simpa [put, hv, wf] using wfFrom_filter a hm
  · have fresh : ∀ e ∈ m.filter (fun e => e.1 != a), e.1 ≠ a := by
      intro e he; simpa using (List.mem_filter.mp he).2
    simpa [put, hv, wf] using wfFrom_insert (Nat.zero_le a) ha hv fresh (wfFrom_filter a hm)

/-- The bounds-checked write keeps the canonical form. -/
theorem wf_write {m m' : Memory} {a : Nat} {v : Byte} (h : m.write a v = some m') (hm : wf m = true) :
    wf m' = true := by
  unfold write at h
  split at h
  · cases h; exact wf_put v ‹_› hm
  · cases h

/-- Placing bytes keeps the canonical form. -/
theorem wf_placeBytes {m : Memory} (base : Nat) (bytes : List Byte) (hm : wf m = true) :
    wf (placeBytes m base bytes) = true := by
  induction bytes generalizing m base with
  | nil => exact hm
  | cons v rest ih =>
    refine ih (base + 1) ?_
    cases h : m.write base v with
    | none => simpa using hm
    | some m' => simpa using wf_write h hm

/-- What a cell holds after bytes are placed. -/
theorem cell_placeBytes (m : Memory) (base : Nat) (bytes : List Byte) (a : Nat) (ha : a < 256) :
    cell (placeBytes m base bytes) a = if h : base ≤ a ∧ a - base < bytes.length then bytes[a - base]'h.2 else cell m a := by
  induction bytes generalizing m base with
  | nil => simp [placeBytes]
  | cons v rest ih =>
    rw [placeBytes, ih]
    by_cases hb : base < 256
    · by_cases hab : a = base
      · subst hab; simp [write, ha]
      · by_cases hlt : base < a
        · obtain ⟨d, rfl⟩ : ∃ d, a = base + 1 + d := ⟨a - base - 1, by omega⟩
          have e1 : base + 1 + d - (base + 1) = d := by omega
          have e2 : base + 1 + d - base = d + 1 := by omega
          have e3 : base ≤ base + 1 + d := by omega
          simp [e1, e2, e3, write, hb, cell_put_other _ v hab]
        · have h1 : ¬ base + 1 ≤ a := by omega
          have h2 : ¬ base ≤ a := by omega
          simp [h1, h2, write, hb, cell_put_other _ v hab]
    · have h1 : ¬ base + 1 ≤ a := by omega
      have h2 : ¬ base ≤ a := by omega
      simp [h1, h2, write, hb]

/-- Equal reads are equal cells, inside memory. -/
theorem read_of_lt (m : Memory) {a : Nat} (ha : a < 256) : m.read a = some (m.cell a) := by
  simp [read, ha]

theorem read_of_ge (m : Memory) {a : Nat} (ha : 256 ≤ a) : m.read a = none := by
  simp [read, Nat.not_lt.mpr ha]

/-- Memory after reset is in canonical form. -/
theorem wf_reset : wf State.reset.mem = true := rfl

end Sys2Proof.Machine.Memory
end

