-- ==== Sys2Proof/Laws/State.lean ====
section
/-! SUPPORT. One lemma per field per update of State, all by rfl, and reading a register after writing one. -/

namespace Sys2Proof.Machine.State

@[simp] theorem setReg_pc (s : State) (i : Fin 8) (v : Byte) : (s.setReg i v).pc = s.pc := rfl
@[simp] theorem setReg_fl (s : State) (i : Fin 8) (v : Byte) : (s.setReg i v).fl = s.fl := rfl
@[simp] theorem setReg_mem (s : State) (i : Fin 8) (v : Byte) : (s.setReg i v).mem = s.mem := rfl
@[simp] theorem setReg_halted (s : State) (i : Fin 8) (v : Byte) : (s.setReg i v).halted = s.halted := rfl
@[simp] theorem setReg_fault (s : State) (i : Fin 8) (v : Byte) : (s.setReg i v).fault = s.fault := rfl
@[simp] theorem setReg_out (s : State) (i : Fin 8) (v : Byte) : (s.setReg i v).out = s.out := rfl

@[simp] theorem setSp_pc (s : State) (v : Byte) : (s.setSp v).pc = s.pc := rfl
@[simp] theorem setSp_fl (s : State) (v : Byte) : (s.setSp v).fl = s.fl := rfl
@[simp] theorem setSp_mem (s : State) (v : Byte) : (s.setSp v).mem = s.mem := rfl
@[simp] theorem setSp_halted (s : State) (v : Byte) : (s.setSp v).halted = s.halted := rfl
@[simp] theorem setSp_fault (s : State) (v : Byte) : (s.setSp v).fault = s.fault := rfl
@[simp] theorem setSp_out (s : State) (v : Byte) : (s.setSp v).out = s.out := rfl

@[simp] theorem store_reg (s : State) (a v : Byte) (r : Fin 8) : (s.store a v).reg r = s.reg r := rfl
@[simp] theorem store_pc (s : State) (a v : Byte) : (s.store a v).pc = s.pc := rfl
@[simp] theorem store_fl (s : State) (a v : Byte) : (s.store a v).fl = s.fl := rfl
@[simp] theorem store_mem (s : State) (a v : Byte) : (s.store a v).mem = s.mem.put a.toNat v := rfl
@[simp] theorem store_halted (s : State) (a v : Byte) : (s.store a v).halted = s.halted := rfl
@[simp] theorem store_fault (s : State) (a v : Byte) : (s.store a v).fault = s.fault := rfl
@[simp] theorem store_out (s : State) (a v : Byte) : (s.store a v).out = s.out := rfl

@[simp] theorem advance_reg (s : State) (n : Nat) (r : Fin 8) : (s.advance n).reg r = s.reg r := rfl
@[simp] theorem advance_pc (s : State) (n : Nat) : (s.advance n).pc = s.pc + BitVec.ofNat 9 n := rfl
@[simp] theorem advance_fl (s : State) (n : Nat) : (s.advance n).fl = s.fl := rfl
@[simp] theorem advance_mem (s : State) (n : Nat) : (s.advance n).mem = s.mem := rfl
@[simp] theorem advance_halted (s : State) (n : Nat) : (s.advance n).halted = s.halted := rfl
@[simp] theorem advance_fault (s : State) (n : Nat) : (s.advance n).fault = s.fault := rfl
@[simp] theorem advance_out (s : State) (n : Nat) : (s.advance n).out = s.out := rfl

@[simp] theorem jumpTo_reg (s : State) (v : Byte) (r : Fin 8) : (s.jumpTo v).reg r = s.reg r := rfl
@[simp] theorem jumpTo_pc (s : State) (v : Byte) : (s.jumpTo v).pc = zext9 v := rfl
@[simp] theorem jumpTo_fl (s : State) (v : Byte) : (s.jumpTo v).fl = s.fl := rfl
@[simp] theorem jumpTo_mem (s : State) (v : Byte) : (s.jumpTo v).mem = s.mem := rfl
@[simp] theorem jumpTo_halted (s : State) (v : Byte) : (s.jumpTo v).halted = s.halted := rfl
@[simp] theorem jumpTo_fault (s : State) (v : Byte) : (s.jumpTo v).fault = s.fault := rfl
@[simp] theorem jumpTo_out (s : State) (v : Byte) : (s.jumpTo v).out = s.out := rfl

@[simp] theorem setFl_reg (s : State) (v : Byte) (r : Fin 8) : (s.setFl v).reg r = s.reg r := rfl
@[simp] theorem setFl_pc (s : State) (v : Byte) : (s.setFl v).pc = s.pc := rfl
@[simp] theorem setFl_fl (s : State) (v : Byte) : (s.setFl v).fl = v := rfl
@[simp] theorem setFl_mem (s : State) (v : Byte) : (s.setFl v).mem = s.mem := rfl
@[simp] theorem setFl_halted (s : State) (v : Byte) : (s.setFl v).halted = s.halted := rfl
@[simp] theorem setFl_fault (s : State) (v : Byte) : (s.setFl v).fault = s.fault := rfl
@[simp] theorem setFl_out (s : State) (v : Byte) : (s.setFl v).out = s.out := rfl

@[simp] theorem setHalted_reg (s : State) (r : Fin 8) : s.setHalted.reg r = s.reg r := rfl
@[simp] theorem setHalted_pc (s : State) : s.setHalted.pc = s.pc := rfl
@[simp] theorem setHalted_fl (s : State) : s.setHalted.fl = s.fl := rfl
@[simp] theorem setHalted_mem (s : State) : s.setHalted.mem = s.mem := rfl
@[simp] theorem setHalted_halted (s : State) : s.setHalted.halted = true := rfl
@[simp] theorem setHalted_fault (s : State) : s.setHalted.fault = s.fault := rfl
@[simp] theorem setHalted_out (s : State) : s.setHalted.out = s.out := rfl

@[simp] theorem emit_reg (s : State) (v : Byte) (r : Fin 8) : (s.emit v).reg r = s.reg r := rfl
@[simp] theorem emit_pc (s : State) (v : Byte) : (s.emit v).pc = s.pc := rfl
@[simp] theorem emit_fl (s : State) (v : Byte) : (s.emit v).fl = s.fl := rfl
@[simp] theorem emit_mem (s : State) (v : Byte) : (s.emit v).mem = s.mem := rfl
@[simp] theorem emit_halted (s : State) (v : Byte) : (s.emit v).halted = s.halted := rfl
@[simp] theorem emit_fault (s : State) (v : Byte) : (s.emit v).fault = s.fault := rfl
@[simp] theorem emit_out (s : State) (v : Byte) : (s.emit v).out = s.out ++ [v] := rfl

@[simp] theorem withFault_reg (s : State) (k : Fault) (r : Fin 8) : (s.withFault k).reg r = s.reg r := rfl
@[simp] theorem withFault_pc (s : State) (k : Fault) : (s.withFault k).pc = s.pc := rfl
@[simp] theorem withFault_fl (s : State) (k : Fault) : (s.withFault k).fl = s.fl := rfl
@[simp] theorem withFault_mem (s : State) (k : Fault) : (s.withFault k).mem = s.mem := rfl
@[simp] theorem withFault_halted (s : State) (k : Fault) : (s.withFault k).halted = s.halted := rfl
@[simp] theorem withFault_fault (s : State) (k : Fault) : (s.withFault k).fault = some k := rfl
@[simp] theorem withFault_out (s : State) (k : Fault) : (s.withFault k).out = s.out := rfl

/-- A register reads as the last write to it, and every other register as before. -/
theorem reg_setReg (s : State) (i r : Fin 8) (v : Byte) :
    (s.setReg i v).reg r = if r = i then v else s.reg r := by
  simp only [reg, setReg, Fin.getElem_fin, Vector.getElem_set, Fin.ext_iff, eq_comm]

@[simp] theorem reg_setReg_same (s : State) (i : Fin 8) (v : Byte) : (s.setReg i v).reg i = v := by
  simp [reg_setReg]

theorem reg_setReg_other (s : State) {i r : Fin 8} (v : Byte) (h : r ≠ i) : (s.setReg i v).reg r = s.reg r := by
  simp [reg_setReg, h]

/-- SP is register 7. -/
theorem reg_setSp (s : State) (r : Fin 8) (v : Byte) :
    (s.setSp v).reg r = if r = Config.spIndex then v else s.reg r :=
  reg_setReg s Config.spIndex r v

@[simp] theorem sp_setSp (s : State) (v : Byte) : (s.setSp v).sp = v :=
  reg_setReg_same s Config.spIndex v

end Sys2Proof.Machine.State
end

