-- ==== Sys2Proof/Laws/Ops.lean ====
section
/-! SUPPORT. One lemma for each shared operation that says once everything it can do. -/

namespace Sys2Proof.Machine

/-! ### Register operands -/

/-- A byte names register `i` exactly when it is the number of `i`. -/
theorem registerIndex_eq_some {v : Byte} {i : Fin 8} : registerIndex v = some i ↔ v.toNat = i.val := by
  unfold registerIndex
  split
  · simp [Fin.ext_iff]
  · simp only [reduceCtorEq, false_iff]; omega

/-- A byte names no register exactly when it is above 7. -/
theorem registerIndex_eq_none {v : Byte} : registerIndex v = none ↔ 7 < v.toNat := by
  unfold registerIndex
  split
  · simp only [reduceCtorEq, false_iff]; omega
  · simp only [true_iff]; omega

/-! ### The operand checks -/

theorem needBytes_short {len : Nat} {s : State} {rest : Result} (h : 255 < s.pc.toNat + len - 1) :
    needBytes len s rest = raise .outOfBounds s := if_pos h

theorem needBytes_fits {len : Nat} {s : State} {rest : Result} (h : s.pc.toNat + len - 1 ≤ 255) :
    needBytes len s rest = rest := if_neg (Nat.not_lt.mpr h)

theorem needRegister_absent {v : Byte} {s : State} {rest : Fin 8 → Result} (h : 7 < v.toNat) :
    needRegister v s rest = raise .outOfBounds s := by
  rw [needRegister, registerIndex_eq_none.mpr h]

theorem needRegister_names {v : Byte} {i : Fin 8} {s : State} {rest : Fin 8 → Result} (h : v.toNat = i.val) :
    needRegister v s rest = rest i := by
  rw [needRegister, registerIndex_eq_some.mpr h]

/-- Format Z answers OutOfBounds or what the execute block answers. -/
theorem formatZ_cases (s : State) (rest : Result) :
    (255 < s.pc.toNat ∧ formatZ s rest = raise .outOfBounds s) ∨ (s.pc.toNat ≤ 255 ∧ formatZ s rest = rest) := by
  rcases Nat.lt_or_ge 255 s.pc.toNat with h | h
  · exact .inl ⟨h, needBytes_short (by simpa [Format.length] using h)⟩
  · exact .inr ⟨h, needBytes_fits (by simpa [Format.length] using h)⟩

/-- A length and one register: OutOfBounds, or the execute block for the register named. -/
theorem oneRegister_cases {len : Nat} (a : Byte) (s : State) (rest : Fin 8 → Result) :
    ((255 < s.pc.toNat + len - 1 ∨ 7 < a.toNat) ∧ needBytes len s (needRegister a s rest) = raise .outOfBounds s) ∨
    (∃ i : Fin 8, s.pc.toNat + len - 1 ≤ 255 ∧ a.toNat = i.val ∧ needBytes len s (needRegister a s rest) = rest i) := by
  rcases Nat.lt_or_ge 255 (s.pc.toNat + len - 1) with h | h
  · exact .inl ⟨.inl h, needBytes_short h⟩
  · rcases Nat.lt_or_ge 7 a.toNat with ha | ha
    · exact .inl ⟨.inr ha, by rw [needBytes_fits h, needRegister_absent ha]⟩
    · exact .inr ⟨⟨a.toNat, by omega⟩, h, rfl, (needBytes_fits h).trans (needRegister_names rfl)⟩

/-- Format R: OutOfBounds, or the execute block for the register named. -/
theorem formatR_cases (a : Byte) (s : State) (rest : Fin 8 → Result) :
    ((254 < s.pc.toNat ∨ 7 < a.toNat) ∧ formatR a s rest = raise .outOfBounds s) ∨
    (∃ i : Fin 8, s.pc.toNat ≤ 254 ∧ a.toNat = i.val ∧ formatR a s rest = rest i) := by
  rcases oneRegister_cases (len := Format.r.length) a s rest with ⟨h, e⟩ | ⟨i, h, hi, e⟩
  · exact .inl ⟨h.imp_left (by simp [Format.length]; omega), e⟩
  · exact .inr ⟨i, by simp [Format.length] at h; omega, hi, e⟩

/-- Format RI: OutOfBounds, or the execute block for the register named. -/
theorem formatRI_cases (a : Byte) (s : State) (rest : Fin 8 → Result) :
    ((253 < s.pc.toNat ∨ 7 < a.toNat) ∧ formatRI a s rest = raise .outOfBounds s) ∨
    (∃ i : Fin 8, s.pc.toNat ≤ 253 ∧ a.toNat = i.val ∧ formatRI a s rest = rest i) := by
  rcases oneRegister_cases (len := Format.ri.length) a s rest with ⟨h, e⟩ | ⟨i, h, hi, e⟩
  · exact .inl ⟨h.imp_left (by simp [Format.length]; omega), e⟩
  · exact .inr ⟨i, by simp [Format.length] at h; omega, hi, e⟩

/-- Format RR: OutOfBounds, or the execute block for the two registers named. -/
theorem formatRR_cases (a b : Byte) (s : State) (rest : Fin 8 → Fin 8 → Result) :
    ((253 < s.pc.toNat ∨ 7 < a.toNat ∨ 7 < b.toNat) ∧ formatRR a b s rest = raise .outOfBounds s) ∨
    (∃ i j : Fin 8, s.pc.toNat ≤ 253 ∧ a.toNat = i.val ∧ b.toNat = j.val ∧ formatRR a b s rest = rest i j) := by
  rcases oneRegister_cases (len := Format.rr.length) a s (fun i => needRegister b s fun j => rest i j)
    with ⟨h, e⟩ | ⟨i, h, hi, e⟩
  · refine .inl ⟨?_, e⟩
    rcases h with h | h
    · simp [Format.length] at h; omega
    · exact .inr (.inl h)
  · rcases Nat.lt_or_ge 7 b.toNat with hb | hb
    · exact .inl ⟨.inr (.inr hb), e.trans (needRegister_absent hb)⟩
    · refine .inr ⟨i, ⟨b.toNat, by omega⟩, by simp [Format.length] at h; omega, hi, rfl, ?_⟩
      exact e.trans (needRegister_names rfl)

/-! ### The stack-pointer block -/

theorem stepDown_eq_none {v : Byte} : stepDown v = none ↔ v = 0 := by
  unfold stepDown
  constructor
  · intro h
    split at h
    · apply BitVec.eq_of_toNat_eq; simpa using ‹v.toNat = 0›
    · cases h
  · rintro rfl; rfl

/-- Going down is exact: no wrap. -/
theorem stepDown_eq_some {v w : Byte} : stepDown v = some w ↔ w.toNat + 1 = v.toNat := by
  have hv := v.isLt
  have hw := w.isLt
  unfold stepDown
  split
  · simp; omega
  · simp only [Option.some.injEq]
    constructor
    · rintro rfl; rw [BitVec.toNat_ofNat, Nat.mod_eq_of_lt] <;> omega
    · intro h; apply BitVec.eq_of_toNat_eq; rw [BitVec.toNat_ofNat, Nat.mod_eq_of_lt] <;> omega

theorem stepUp_eq_none {v : Byte} : stepUp v = none ↔ v.toNat = 255 := by
  have hv := v.isLt
  unfold stepUp
  split
  · simp; omega
  · simp; omega

/-- Going up is exact: no wrap. -/
theorem stepUp_eq_some {v w : Byte} : stepUp v = some w ↔ w.toNat = v.toNat + 1 := by
  have hv := v.isLt
  have hw := w.isLt
  unfold stepUp
  split
  · simp; omega
  · simp only [Option.some.injEq]
    constructor
    · rintro rfl; rw [BitVec.toNat_ofNat, Nat.mod_eq_of_lt]; omega
    · intro h; apply BitVec.eq_of_toNat_eq; rw [BitVec.toNat_ofNat, Nat.mod_eq_of_lt] <;> omega

/-! ### The program counter -/

@[simp] theorem zext9_toNat (v : Byte) : (zext9 v).toNat = v.toNat := by
  have := v.isLt
  simp only [zext9, BitVec.toNat_setWidth]
  omega

/-- The incrementer is exact below 512. -/
theorem advance_pc_toNat {s : State} {n : Nat} (h : s.pc.toNat + n < 512) : (s.advance n).pc.toNat = s.pc.toNat + n := by
  simp only [State.advance_pc, BitVec.toNat_add, BitVec.toNat_ofNat]
  omega

/-! ### The ALU -/

@[simp] theorem aluAdd_toNat (p q : Byte) : (aluAdd p q).toNat = (p.toNat + q.toNat) % 256 := by
  simp [aluAdd]

@[simp] theorem aluMul_toNat (p q : Byte) : (aluMul p q).toNat = p.toNat * q.toNat % 256 := by
  simp [aluMul]

/-- FL after a compare is one of three values, each for one order of the operands. -/
theorem compareFlags_cases (p q : Byte) :
    (p.toNat = q.toNat ∧ compareFlags p q = 0x01) ∨ (q.toNat < p.toNat ∧ compareFlags p q = 0x02) ∨
    (p.toNat < q.toNat ∧ compareFlags p q = 0x04) := by
  unfold compareFlags
  split
  · exact .inl ⟨‹_›, rfl⟩
  · split
    · exact .inr (.inl ⟨‹_›, rfl⟩)
    · exact .inr (.inr ⟨by omega, rfl⟩)

/-! ### Fetch and decode -/

/-- The opcode map finds a mnemonic exactly at its own byte. -/
theorem mnemonicOf_eq_some (c : OpcodeMap) (opcode : Byte) (m : Mnemonic) :
    mnemonicOf c opcode = some m ↔ c.byte m = opcode := by
  constructor
  · intro h; simpa using List.find?_some h
  · rintro rfl
    have hm : m ∈ Mnemonic.all := by cases m <;> decide
    cases h : mnemonicOf c (c.byte m) with
    | none => exact absurd hm (fun hm => by simpa using List.find?_eq_none.mp h m hm)
    | some n => exact congrArg some (c.injective n m (by simpa using List.find?_some h))

/-- Fetch and decode answer OutOfBounds above 255, InvalidOpcode for a byte outside the map, and else the instruction
of that byte with the latched operand bytes. -/
theorem fetchDecode_cases (s : State) (c : OpcodeMap) (d : Nat → Byte) :
    (255 < s.pc.toNat ∧ s.fetchDecode c d = .error .outOfBounds) ∨
    (s.pc.toNat ≤ 255 ∧ mnemonicOf c (s.mem.cell s.pc.toNat) = none ∧ s.fetchDecode c d = .error .invalidOpcode) ∨
    (∃ m, s.pc.toNat ≤ 255 ∧ mnemonicOf c (s.mem.cell s.pc.toNat) = some m ∧
      s.fetchDecode c d = .ok (instrOf m (s.operandLatch d 1) (s.operandLatch d 2))) := by
  rcases Nat.lt_or_ge 255 s.pc.toNat with h | h
  · exact .inl ⟨h, by simp [State.fetchDecode, Memory.read_of_ge _ h]⟩
  · have hr : s.mem.read s.pc.toNat = some (s.mem.cell s.pc.toNat) := Memory.read_of_lt _ (by omega)
    cases hm : mnemonicOf c (s.mem.cell s.pc.toNat) with
    | none => exact .inr (.inl ⟨h, rfl, by simp [State.fetchDecode, hr, decode, hm]⟩)
    | some m => exact .inr (.inr ⟨m, h, rfl, by simp [State.fetchDecode, hr, decode, hm]⟩)

/-- An operand latch holds the cell where its address is in memory. -/
theorem operandLatch_in_memory {s : State} {d : Nat → Byte} {k : Nat} (h : s.pc.toNat + k < 256) :
    s.operandLatch d k = s.mem.cell (s.pc.toNat + k) := by
  simp [State.operandLatch, Memory.read_of_lt _ h]

/-- A state has no stop report exactly when it is not terminal. -/
theorem stopReport_eq_none {s : State} : s.stopReport = none ↔ s.terminal = false := by
  unfold State.stopReport State.terminal
  cases s.fault <;> cases s.halted <;> simp

end Sys2Proof.Machine
end

