-- ==== Sys2Proof/Laws/Exec.lean ====
section
/-! SUPPORT. What executing an instruction and what a step can do, said once: provers cite these lemmas and need not
unfold a meaning. -/

namespace Sys2Proof.Machine

/-- The effect of each instruction when it completes, with what held of its operands. -/
inductive Effect : Instr → State → State → Prop where
  | hlt {s : State} (fits : s.pc.toNat ≤ 255) : Effect .hlt s (s.setHalted.advance 1)
  | ldi {s : State} {a b : Byte} {i : Fin 8} (fits : s.pc.toNat ≤ 253) (ha : a.toNat = i.val) :
      Effect (.ldi a b) s ((s.setReg i b).advance 3)
  | prn {s : State} {a : Byte} {i : Fin 8} (fits : s.pc.toNat ≤ 254) (ha : a.toNat = i.val) :
      Effect (.prn a) s ((s.emit (s.reg i)).advance 2)
  | mul {s : State} {a b : Byte} {i j : Fin 8} (fits : s.pc.toNat ≤ 253) (ha : a.toNat = i.val) (hb : b.toNat = j.val) :
      Effect (.mul a b) s ((s.setReg i (aluMul (s.reg i) (s.reg j))).advance 3)
  | add {s : State} {a b : Byte} {i j : Fin 8} (fits : s.pc.toNat ≤ 253) (ha : a.toNat = i.val) (hb : b.toNat = j.val) :
      Effect (.add a b) s ((s.setReg i (aluAdd (s.reg i) (s.reg j))).advance 3)
  | push {s : State} {a sp : Byte} {i : Fin 8} (fits : s.pc.toNat ≤ 254) (ha : a.toNat = i.val)
      (hsp : sp.toNat + 1 = s.sp.toNat) :
      Effect (.push a) s (((s.setSp sp).store sp ((s.setSp sp).reg i)).advance 2)
  | pop {s : State} {a sp : Byte} {i : Fin 8} (fits : s.pc.toNat ≤ 254) (ha : a.toNat = i.val)
      (hsp : sp.toNat = (if i = Config.spIndex then s.load s.sp else s.sp).toNat + 1) :
      Effect (.pop a) s (((s.setReg i (s.load s.sp)).setSp sp).advance 2)
  | call {s : State} {a sp : Byte} {i : Fin 8} (fits : s.pc.toNat ≤ 253) (ha : a.toNat = i.val)
      (hsp : sp.toNat + 1 = s.sp.toNat) :
      Effect (.call a) s (((s.setSp sp).store sp (BitVec.ofNat 8 (s.pc.toNat + 2))).jumpTo ((s.setSp sp).reg i))
  | ret {s : State} {sp : Byte} (fits : s.pc.toNat ≤ 255) (hsp : sp.toNat = s.sp.toNat + 1) :
      Effect .ret s ((s.setSp sp).jumpTo (s.load s.sp))
  | cmp {s : State} {a b : Byte} {i j : Fin 8} (fits : s.pc.toNat ≤ 253) (ha : a.toNat = i.val) (hb : b.toNat = j.val) :
      Effect (.cmp a b) s ((s.setFl (compareFlags (s.reg i) (s.reg j))).advance 3)
  | jmp {s : State} {a : Byte} {i : Fin 8} (fits : s.pc.toNat ≤ 254) (ha : a.toNat = i.val) :
      Effect (.jmp a) s (s.jumpTo (s.reg i))
  | jeq {s : State} {a : Byte} {i : Fin 8} (fits : s.pc.toNat ≤ 254) (ha : a.toNat = i.val) :
      Effect (.jeq a) s (if flagE s.fl then s.jumpTo (s.reg i) else s.advance 2)
  | jne {s : State} {a : Byte} {i : Fin 8} (fits : s.pc.toNat ≤ 254) (ha : a.toNat = i.val) :
      Effect (.jne a) s (if flagE s.fl then s.advance 2 else s.jumpTo (s.reg i))

theorem raise_eq_next {k : Fault} {s t : State} (h : raise k s = .next t) : t = s.withFault k := by
  cases h; rfl

/-- Executing an instruction raises OutOfBounds or StackFault, or has the instruction's effect. -/
theorem exec_cases {i : Instr} {s t : State} (h : exec i s = .next t) :
    t = s.withFault .outOfBounds ∨ t = s.withFault .stackFault ∨ Effect i s t := by
  cases i with
  | hlt =>
    rcases formatZ_cases s (.next (s.setHalted.advance 1)) with ⟨_, e⟩ | ⟨fits, e⟩
    · exact .inl (raise_eq_next (e.symm.trans h))
    · cases e.symm.trans h; exact .inr (.inr (.hlt fits))
  | ldi a b =>
    rcases formatRI_cases a s (fun i => .next ((s.setReg i b).advance 3)) with ⟨_, e⟩ | ⟨i, fits, ha, e⟩
    · exact .inl (raise_eq_next (e.symm.trans h))
    · cases e.symm.trans h; exact .inr (.inr (.ldi fits ha))
  | prn a =>
    rcases formatR_cases a s (fun i => .next ((s.emit (s.reg i)).advance 2)) with ⟨_, e⟩ | ⟨i, fits, ha, e⟩
    · exact .inl (raise_eq_next (e.symm.trans h))
    · cases e.symm.trans h; exact .inr (.inr (.prn fits ha))
  | mul a b =>
    simp only [exec, execMul] at h
    rcases formatRR_cases a b s _ with ⟨_, e⟩ | ⟨i, j, fits, ha, hb, e⟩ <;> rw [e] at h
    · exact .inl (raise_eq_next h)
    · cases h; exact .inr (.inr (.mul fits ha hb))
  | add a b =>
    simp only [exec, execAdd] at h
    rcases formatRR_cases a b s _ with ⟨_, e⟩ | ⟨i, j, fits, ha, hb, e⟩ <;> rw [e] at h
    · exact .inl (raise_eq_next h)
    · cases h; exact .inr (.inr (.add fits ha hb))
  | push a =>
    simp only [exec, execPush] at h
    rcases formatR_cases a s _ with ⟨_, e⟩ | ⟨i, fits, ha, e⟩ <;> rw [e] at h
    · exact .inl (raise_eq_next h)
    · cases hsp : stepDown s.sp with
      | none => rw [hsp] at h; exact .inr (.inl (raise_eq_next h))
      | some sp => rw [hsp] at h; cases h; exact .inr (.inr (.push fits ha (stepDown_eq_some.mp hsp)))
  | pop a =>
    simp only [exec, execPop] at h
    rcases formatR_cases a s _ with ⟨_, e⟩ | ⟨i, fits, ha, e⟩ <;> rw [e] at h
    · exact .inl (raise_eq_next h)
    · cases hsp : stepUp (if i = Config.spIndex then s.load s.sp else s.sp) with
      | none => simp only [hsp] at h; exact .inr (.inl (raise_eq_next h))
      | some sp => simp only [hsp] at h; cases h; exact .inr (.inr (.pop fits ha (stepUp_eq_some.mp hsp)))
  | call a =>
    simp only [exec, execCall] at h
    rcases formatR_cases a s _ with ⟨_, e⟩ | ⟨i, fits, ha, e⟩ <;> rw [e] at h
    · exact .inl (raise_eq_next h)
    · cases hsp : stepDown s.sp with
      | none => rw [hsp] at h; exact .inr (.inl (raise_eq_next h))
      | some sp =>
        simp only [hsp] at h
        split at h
        · exact .inl (raise_eq_next h)
        · cases h; exact .inr (.inr (.call (by omega) ha (stepDown_eq_some.mp hsp)))
  | ret =>
    simp only [exec, execRet] at h
    rcases formatZ_cases s _ with ⟨_, e⟩ | ⟨fits, e⟩ <;> rw [e] at h
    · exact .inl (raise_eq_next h)
    · cases hsp : stepUp s.sp with
      | none => rw [hsp] at h; exact .inr (.inl (raise_eq_next h))
      | some sp => rw [hsp] at h; cases h; exact .inr (.inr (.ret fits (stepUp_eq_some.mp hsp)))
  | cmp a b =>
    simp only [exec, execCmp] at h
    rcases formatRR_cases a b s _ with ⟨_, e⟩ | ⟨i, j, fits, ha, hb, e⟩ <;> rw [e] at h
    · exact .inl (raise_eq_next h)
    · cases h; exact .inr (.inr (.cmp fits ha hb))
  | jmp a =>
    simp only [exec, execJmp] at h
    rcases formatR_cases a s _ with ⟨_, e⟩ | ⟨i, fits, ha, e⟩ <;> rw [e] at h
    · exact .inl (raise_eq_next h)
    · cases h; exact .inr (.inr (.jmp fits ha))
  | jeq a =>
    simp only [exec, execJeq] at h
    rcases formatR_cases a s _ with ⟨_, e⟩ | ⟨i, fits, ha, e⟩ <;> rw [e] at h
    · exact .inl (raise_eq_next h)
    · cases h; exact .inr (.inr (.jeq fits ha))
  | jne a =>
    simp only [exec, execJne] at h
    rcases formatR_cases a s _ with ⟨_, e⟩ | ⟨i, fits, ha, e⟩ <;> rw [e] at h
    · exact .inl (raise_eq_next h)
    · cases h; exact .inr (.inr (.jne fits ha))

/-- From a state that is not terminal a step is fetch, decode, and then the fault or the instruction. -/
theorem stepWith_of_running {s : State} (c : OpcodeMap) (d : Nat → Byte) (h : s.terminal = false) :
    (∃ k, s.fetchDecode c d = .error k ∧ stepWith c d s = .next (s.withFault k)) ∨
    (∃ i, s.fetchDecode c d = .ok i ∧ stepWith c d s = exec i s) := by
  unfold stepWith
  rw [stopReport_eq_none.mpr h]
  cases hf : s.fetchDecode c d with
  | error k => exact .inl ⟨k, rfl, rfl⟩
  | ok i => exact .inr ⟨i, rfl, rfl⟩

/-- A step with a next state starts from a state that is not terminal, and raises at fetch or decode or executes. -/
theorem stepWith_cases {c : OpcodeMap} {d : Nat → Byte} {s t : State} (h : stepWith c d s = .next t) :
    s.terminal = false ∧
    ((∃ k, s.fetchDecode c d = .error k ∧ t = s.withFault k) ∨
     (∃ i, s.fetchDecode c d = .ok i ∧ exec i s = .next t)) := by
  have running : s.terminal = false := by
    rw [← stopReport_eq_none]
    cases hr : s.stopReport with
    | none => rfl
    | some r =>
      rw [stepWith, hr] at h
      subst h
      unfold State.stopReport at hr
      split at hr
      · cases hr
      · split at hr <;> cases hr
  refine ⟨running, ?_⟩
  rcases stepWith_of_running c d running with ⟨k, hf, e⟩ | ⟨i, hf, e⟩
  · cases e.symm.trans h; exact .inl ⟨k, hf, rfl⟩
  · exact .inr ⟨i, hf, e.symm.trans h⟩

/-- A state that is not terminal holds no fault and is not halted. -/
theorem terminal_eq_false {s : State} : s.terminal = false ↔ s.halted = false ∧ s.fault = none := by
  simp [State.terminal]

end Sys2Proof.Machine
end

