-- ==== Sys2Proof/Laws/PerInstr.lean ====
section
/-! SUPPORT. Facts about every instruction as syntax, one lemma per constructor. -/

namespace Sys2Proof.Laws

/-- An instruction is encoded in exactly LEN bytes under every opcode map (spec/30_encoding.md R80, R93). -/
def EncodeLength.Statement (i : Instr) : Prop :=
  ∀ c : OpcodeMap, (encode c i).length = i.mnemonic.length

theorem EncodeLength.hlt : EncodeLength.Statement .hlt := fun _ => rfl
theorem EncodeLength.ldi (a b : Byte) : EncodeLength.Statement (.ldi a b) := fun _ => rfl
theorem EncodeLength.prn (a : Byte) : EncodeLength.Statement (.prn a) := fun _ => rfl
theorem EncodeLength.mul (a b : Byte) : EncodeLength.Statement (.mul a b) := fun _ => rfl
theorem EncodeLength.add (a b : Byte) : EncodeLength.Statement (.add a b) := fun _ => rfl
theorem EncodeLength.push (a : Byte) : EncodeLength.Statement (.push a) := fun _ => rfl
theorem EncodeLength.pop (a : Byte) : EncodeLength.Statement (.pop a) := fun _ => rfl
theorem EncodeLength.call (a : Byte) : EncodeLength.Statement (.call a) := fun _ => rfl
theorem EncodeLength.ret : EncodeLength.Statement .ret := fun _ => rfl
theorem EncodeLength.cmp (a b : Byte) : EncodeLength.Statement (.cmp a b) := fun _ => rfl
theorem EncodeLength.jmp (a : Byte) : EncodeLength.Statement (.jmp a) := fun _ => rfl
theorem EncodeLength.jeq (a : Byte) : EncodeLength.Statement (.jeq a) := fun _ => rfl
theorem EncodeLength.jne (a : Byte) : EncodeLength.Statement (.jne a) := fun _ => rfl

end Sys2Proof.Laws
end

