-- ==== Sys2Proof/Laws/Transactions.lean ====
section
/-! SUPPORT. What a step request and a run can do, said once. -/

namespace Sys2Proof.Machine

/-- In a terminal state a step request keeps everything. -/
theorem stepTransaction_of_terminal {s : State} (c : OpcodeMap) (d : Nat → Byte) (h : s.terminal = true) :
    s.stepTransaction c d = (s, s.outcome) := by
  unfold State.stepTransaction
  split
  · rename_i t ht
    exact absurd ((stepWith_cases ht).1.symm.trans h) Bool.false_ne_true
  · rfl
  · rfl

/-- A step with a next state is what the request performs. -/
theorem stepTransaction_of_next {c : OpcodeMap} {d : Nat → Byte} {s t : State} (h : stepWith c d s = .next t) :
    s.stepTransaction c d = (t, t.outcome) := by
  rw [State.stepTransaction, h]

theorem runTransaction_of_terminal {s : State} (c : OpcodeMap) (d : Nat → Byte) (n : Nat) (h : s.terminal = true) :
    s.runTransaction c d n = (s, some s.outcome) := by
  cases n <;> simp [State.runTransaction, h]

theorem runTransaction_zero {s : State} (c : OpcodeMap) (d : Nat → Byte) (h : s.terminal = false) :
    s.runTransaction c d 0 = (s, none) := by
  simp [State.runTransaction, h]

/-- A run from a state that is not terminal is one step and the rest of the run. -/
theorem runTransaction_succ {s : State} (c : OpcodeMap) (d : Nat → Byte) (n : Nat) (h : s.terminal = false) :
    s.runTransaction c d (n + 1) = (s.stepTransaction c d).1.runTransaction c d n := by
  simp [State.runTransaction, h]

/-- Only a reset brings the host back to the place right after reset. -/
theorem act_phase_ne_justReset {x : Session} {t : Transaction} (c : OpcodeMap) (d : Nat → Byte)
    (h : x.phase ≠ .justReset) (ht : t ≠ .reset) : (x.act c d t).1.phase ≠ .justReset := by
  cases t with
  | reset => exact absurd rfl ht
  | load bytes => cases hp : x.phase <;> simp_all [Session.act]
  | step => cases hp : x.phase <;> simp_all [Session.act]
  | run n => cases hp : x.phase <;> simp_all [Session.act]
  | observe => exact h
  | readCell a => exact h
  | writeCell a v => cases hm : x.machine.mem.write a v <;> cases hp : x.phase <;> simp_all [Session.act]

/-- Once a step was requested, only a reset leaves that place. -/
theorem act_phase_of_stepped {x : Session} {t : Transaction} (c : OpcodeMap) (d : Nat → Byte)
    (h : x.phase = .stepped) (ht : t ≠ .reset) : (x.act c d t).1.phase = .stepped := by
  cases t with
  | reset => exact absurd rfl ht
  | writeCell a v => cases hm : x.machine.mem.write a v <;> simp [Session.act, h, hm]
  | load bytes | step | run n | observe | readCell a => simp [Session.act, h]

end Sys2Proof.Machine
end

