-- ==== Sys2Proof/Tests/Slice0.lean ====
section
/-! SUPPORT. Tests: expected results are the spec's own vectors (spec/95_test_vectors.md, cited by their numbers) or
words written out from spec/30_encoding.md; and for every statement with hypotheses a witness that meets them, at the
ends of its ranges. -/

namespace Sys2Proof.Tests

open Sys2Proof Sys2Proof.Machine

/-- The reset state with pc at `pc` and the bytes placed there. -/
def atPc (pc : Nat) (bytes : List Byte) : State :=
  { State.reset with pc := BitVec.ofNat 9 pc, mem := Memory.placeBytes [] pc bytes }

/-- Whether the answer is a next state of which `p` holds. -/
def answers (r : Result) (p : State → Bool) : Bool :=
  match r with
  | .next t => p t
  | .fault _ => false
  | .refused _ => false

/-- A don't-care latch of the tests' own. -/
def latch : Nat → Byte := fun _ => 0xAA

/-! ### WellFormed refuses each ill-formed operand (R83, R92) -/

theorem test_wellFormed_refuses_a :
    ([.ldi 8 0, .prn 255, .mul 8 0, .add 8 0, .push 8, .pop 8, .call 8, .cmp 8 0, .jmp 8, .jeq 8, .jne 8].all
      fun i : Instr => !i.wellFormed) = true := by decide
theorem test_wellFormed_refuses_b : ([.mul 7 8, .add 7 8, .cmp 7 255].all fun i : Instr => !i.wellFormed) = true := by
  decide
theorem test_wellFormed_accepts :
    ([.hlt, .ret, .ldi 7 255, .mul 7 7, .push 7, .jne 0].all fun i : Instr => i.wellFormed) = true := by decide

/-! ### Decoding: one word per constructor, written out from the default map and the formats (R81, R88) -/

theorem test_decode_hlt : decode defaultOpcodes 0b00000001 0xFF 0xFF = .ok .hlt := by rfl
theorem test_decode_ldi : decode defaultOpcodes 0b10000010 0b00000100 0b11000111 = .ok (.ldi 4 0xC7) := by rfl
theorem test_decode_prn : decode defaultOpcodes 0b01000111 0b00000101 0xFF = .ok (.prn 5) := by rfl
theorem test_decode_mul : decode defaultOpcodes 0b10100010 0b00000010 0b00000111 = .ok (.mul 2 7) := by rfl
theorem test_decode_add : decode defaultOpcodes 0b10100000 0b00000111 0b00000001 = .ok (.add 7 1) := by rfl
theorem test_decode_push : decode defaultOpcodes 0b01000101 0b00000010 0xFF = .ok (.push 2) := by rfl
theorem test_decode_pop : decode defaultOpcodes 0b01000110 0b00000011 0xFF = .ok (.pop 3) := by rfl
theorem test_decode_call : decode defaultOpcodes 0b01010000 0b00000001 0xFF = .ok (.call 1) := by rfl
theorem test_decode_ret : decode defaultOpcodes 0b00010001 0xFF 0xFF = .ok .ret := by rfl
theorem test_decode_cmp : decode defaultOpcodes 0b10100111 0b00000000 0b00000010 = .ok (.cmp 0 2) := by rfl
theorem test_decode_jmp : decode defaultOpcodes 0b01010100 0b00001001 0xFF = .ok (.jmp 9) := by rfl
theorem test_decode_jeq : decode defaultOpcodes 0b01010101 0b00000011 0xFF = .ok (.jeq 3) := by rfl
theorem test_decode_jne : decode defaultOpcodes 0b01010110 0b00000110 0xFF = .ok (.jne 6) := by rfl
/-- F8, F7, F11: 0x00, 0xFF and the family's SUB are no opcodes. -/
theorem test_decode_illegal :
    ([0x00, 0xFF, 0xA1, 0x83].all fun o : Byte => (decode defaultOpcodes o 0 0).toOption.isNone) = true := by decide
theorem test_decodeTableWord_drops_high_bits :
    decodeTableWord 8 0xFFFF01 = some .hlt ∧ decodeTableWord 16 0xFF0047 = some (.prn 0) := by decide
theorem test_encode_order : encode defaultOpcodes (.ldi 3 0xFF) = [0x82, 0x03, 0xFF] := by decide

/-- The examples of R94. -/
theorem test_text :
    (Instr.ldi 0 8).text = some "LDI R0, 8" ∧ (Instr.mul 0 1).text = some "MUL R0, R1" ∧
    (Instr.prn 0).text = some "PRN R0" ∧ Instr.hlt.text = some "HLT" ∧ (Instr.prn 8).text = none := by decide

/-! ### One step of each instruction -/

/-- H1. -/
theorem test_hlt : answers (step (atPc 11 [0x01])) (fun t => t.halted && t.pc == 12 && t.fault == none) = true := by
  decide
/-- F2: the operand latches lie beyond memory. -/
theorem test_hlt_at_255 : answers (step (atPc 255 [0x01])) (fun t => t.halted && t.pc == 256) = true := by decide
/-- L1. -/
theorem test_ldi : answers (step (atPc 0 [0x82, 0x03, 0xFF])) (fun t => t.reg 3 == 255 && t.pc == 3) = true := by decide
/-- L4, F5: a register index of 8, and an operand byte at 256. -/
theorem test_ldi_faults :
    (answers (step (atPc 0 [0x82, 0x08, 0x05])) (fun t => t.fault == some .outOfBounds && t.pc == 0) &&
      answers (step (atPc 254 [0x82])) (fun t => t.fault == some .outOfBounds && t.pc == 254)) = true := by decide
/-- P2: SP is printed after an earlier value. -/
theorem test_prn : answers (step { atPc 9 [0x47, 0x07] with out := [1] })
    (fun t => t.out == [1, 244] && t.pc == 11) = true := by decide
/-- F3. -/
theorem test_prn_at_254 : answers (step ((atPc 254 [0x47, 0x00]).setReg 0 7))
    (fun t => t.out == [7] && t.pc == 256) = true := by decide
/-- M1. -/
theorem test_mul : answers (step (((atPc 0 [0xA2, 0x00, 0x01]).setReg 0 8).setReg 1 9))
    (fun t => t.reg 0 == 72 && t.reg 1 == 9 && t.fl == 0) = true := by decide
/-- M3: the same register twice, 65025 mod 256. -/
theorem test_mul_square : answers (step ((atPc 0 [0xA2, 0x02, 0x02]).setReg 2 255)) (fun t => t.reg 2 == 1) = true := by
  decide
/-- A1. -/
theorem test_add_wraps : answers (step (((atPc 0 [0xA0, 0x00, 0x01]).setReg 0 255).setReg 1 10))
    (fun t => t.reg 0 == 9 && t.pc == 3) = true := by decide
/-- A7: SP wraps in an ADD, with no StackFault. -/
theorem test_add_sp : answers (step ((atPc 0 [0xA0, 0x07, 0x01]).setReg 1 12))
    (fun t => t.sp == 0 && t.fault == none) = true := by decide
/-- C1, C2: less, then greater with the operands exchanged. -/
theorem test_cmp_less_greater :
    (answers (step (((atPc 0 [0xA7, 0x00, 0x02]).setReg 0 1).setReg 2 3)) (fun t => t.fl == 0x04) &&
      answers (step (((atPc 0 [0xA7, 0x02, 0x00]).setReg 0 1).setReg 2 3)) (fun t => t.fl == 0x02)) = true := by decide
/-- C4: 0x80 against 0x7F is unsigned; the old flags are wholly replaced. -/
theorem test_cmp_unsigned : answers (step ((((atPc 0 [0xA7, 0x00, 0x01]).setReg 0 0x80).setReg 1 0x7F).setFl 0xFF))
    (fun t => t.fl == 0x02) = true := by decide
/-- U1. -/
theorem test_push : answers (step ((atPc 3 [0x45, 0x02]).setReg 2 5))
    (fun t => t.sp == 0xF3 && t.mem.read 0xF3 == some 5 && t.pc == 5) = true := by decide
/-- U4, U3: PUSH R7 stores the lowered SP; SP at 0 faults. -/
theorem test_push_sp :
    (answers (step (atPc 0 [0x45, 0x07])) (fun t => t.sp == 0xF3 && t.mem.read 0xF3 == some 0xF3) &&
      answers (step ((atPc 0 [0x45, 0x00]).setSp 0)) (fun t => t.sp == 0 && t.fault == some .stackFault)) = true := by
  decide
/-- O1: the popped cell keeps its value. -/
theorem test_pop : answers (step (((atPc 8 [0x46, 0x02]).setSp 0xF3).store 0xF3 5))
    (fun t => t.reg 2 == 5 && t.sp == 0xF4 && t.pc == 10 && t.mem.read 0xF3 == some 5) = true := by decide
/-- O5, O6: POP R7. -/
theorem test_pop_sp :
    (answers (step (((atPc 0 [0x46, 0x07]).setSp 0xF3).store 0xF3 0x20)) (fun t => t.sp == 0x21) &&
      answers (step (((atPc 0 [0x46, 0x07]).setSp 0xF3).store 0xF3 0xFF))
        (fun t => t.sp == 0xF3 && t.fault == some .stackFault)) = true := by decide
/-- K3: the last address a CALL may stand at. -/
theorem test_call : answers (step ((atPc 253 [0x50, 0x01]).setReg 1 0x40))
    (fun t => t.sp == 0xF3 && t.mem.read 0xF3 == some 255 && t.pc == 0x40) = true := by decide
/-- K4, K5: at 254 the stack check comes before the return-address check. -/
theorem test_call_at_254 :
    (answers (step (atPc 254 [0x50, 0x01])) (fun t => t.fault == some .outOfBounds) &&
      answers (step ((atPc 254 [0x50, 0x01]).setSp 0)) (fun t => t.fault == some .stackFault)) = true := by decide
/-- F9. -/
theorem test_ret : answers (step (((atPc 255 [0x11]).setSp 0xF3).store 0xF3 0x10))
    (fun t => t.pc == 0x10 && t.sp == 0xF4) = true := by decide
/-- T2. -/
theorem test_ret_faults : answers (step ((atPc 0 [0x11]).setSp 255))
    (fun t => t.fault == some .stackFault && t.pc == 0) = true := by decide
/-- F10. -/
theorem test_jmp : answers (step ((atPc 254 [0x54, 0x01]).setReg 1 0)) (fun t => t.pc == 0) = true := by decide
/-- J2, J4. -/
theorem test_jeq :
    (answers (step (((atPc 20 [0x55, 0x03]).setReg 3 12).setFl 0x01)) (fun t => t.pc == 12) &&
      answers (step (((atPc 20 [0x55, 0x03]).setReg 3 12).setFl 0x04)) (fun t => t.pc == 22)) = true := by decide
/-- J11: the register index is checked though the jump is not taken. -/
theorem test_jeq_index : answers (step ((atPc 20 [0x55, 0x09]).setFl 0x04))
    (fun t => t.fault == some .outOfBounds && t.pc == 20) = true := by decide
/-- J6, J9. -/
theorem test_jne :
    (answers (step (((atPc 20 [0x56, 0x03]).setReg 3 12).setFl 0x01)) (fun t => t.pc == 22) &&
      answers (step ((atPc 20 [0x56, 0x03]).setReg 3 12)) (fun t => t.pc == 12)) = true := by decide
/-- F1, F7, F8: fetch above 255, an unknown opcode at 255, and the first step after reset with nothing loaded. -/
theorem test_fetch_faults :
    (answers (step (atPc 256 [])) (fun t => t.fault == some .outOfBounds && t.pc == 256) &&
      answers (step (atPc 255 [0xFF])) (fun t => t.fault == some .invalidOpcode) &&
      answers (step State.reset) (fun t => t.fault == some .invalidOpcode && t.pc == 0)) = true := by decide
theorem test_withFetchWord : answers (step (State.reset.withFetchWord 24 0b00000101_00000010_10000010))
    (fun t => t.reg 2 == 5 && t.pc == 3) = true := by decide
/-- U6: the index check comes before the stack check. -/
theorem test_priority : answers (step ((atPc 0 [0x45, 0x09]).setSp 0)) (fun t => t.fault == some .outOfBounds) = true := by
  decide
/-- F12: a terminal state keeps everything and repeats its outcome. -/
theorem test_terminal :
    ((atPc 0 [0x01]).withFault .stackFault).stepTransaction defaultOpcodes latch =
      ((atPc 0 [0x01]).withFault .stackFault, .faulted .stackFault) ∧
    (atPc 0 [0x01]).setHalted.stepTransaction defaultOpcodes latch = ((atPc 0 [0x01]).setHalted, .halted) := by decide
/-- D9. -/
theorem test_faultCode : [none, some .invalidOpcode, some .outOfBounds, some .stackFault].map faultCode = [0, 1, 2, 3] := by
  decide
/-- Writing the unlisted value removes the cell: equal memories are equal lists. -/
theorem test_memory_canonical :
    Memory.put [(3, 7), (5, 9)] 5 0 = [(3, 7)] ∧ Memory.put [(3, 7), (5, 9)] 4 1 = [(3, 7), (4, 1), (5, 9)] := by decide

/-! ### Witnesses: states and operands that meet the hypotheses of the statements -/

theorem witness_invariant_and_step :
    ∃ s t : State, s.Inv ∧ stepWith defaultOpcodes latch s = .next t ∧ t.fault = none :=
  ⟨atPc 253 [0x82, 0x00, 0x2A], _, ⟨by decide, by decide, by decide, by decide⟩, rfl, rfl⟩
theorem witness_decodeOfEncode :
    encode defaultOpcodes .hlt ++ [1, 2] = 0x01 :: 1 :: 2 :: [] ∧
    encode defaultOpcodes (.mul 0xFF 0x08) ++ [9] = 0xA2 :: 0xFF :: 0x08 :: [9] := by decide
theorem witness_decodedBytes : decode defaultOpcodes 0x47 0xFF 0x00 = .ok (.prn 0xFF) := by rfl
theorem witness_decodeCompares :
    (∃ i, decode defaultOpcodes 0x11 0 0 = .ok i ∧ i.mnemonic = .ret) ∧ defaultOpcodes.byte .ret = 0x11 :=
  ⟨⟨_, rfl, rfl⟩, rfl⟩
theorem witness_stepRuns :
    (atPc 255 [0x01]).terminal = false ∧ (atPc 255 [0x01]).mem.read 255 = some 0x01 ∧
    decode defaultOpcodes 0x01 ((atPc 255 [0x01]).operandLatch Config.dontCare 1)
      ((atPc 255 [0x01]).operandLatch Config.dontCare 2) = .ok .hlt ∧
    decode defaultOpcodes 0x01 ((atPc 255 [0x01]).operandLatch latch 1) ((atPc 255 [0x01]).operandLatch latch 2) = .ok .hlt :=
  ⟨by decide, by decide, rfl, rfl⟩
theorem witness_encodedBytes : (atPc 253 [0xA2, 7, 0]).terminal = false ∧
    ∀ (k : Nat) (v : Byte), (encode defaultOpcodes (.mul 7 0))[k]? = some v →
      (atPc 253 [0xA2, 7, 0]).mem.read ((atPc 253 [0xA2, 7, 0]).pc.toNat + k) = some v := by
  refine ⟨by decide, fun k v h => ?_⟩
  match k with
  | 0 => cases h; decide
  | 1 => cases h; decide
  | 2 => cases h; decide
  | k + 3 => cases h
theorem witness_fetchAbove255 :
    ((atPc 256 []).terminal = false ∧ 255 < (atPc 256 []).pc.toNat) ∧
    ((atPc 258 []).terminal = false ∧ 255 < (atPc 258 []).pc.toNat) := by decide
theorem witness_invalidOpcode : (atPc 255 [0xFF]).terminal = false ∧
    stepWith defaultOpcodes latch (atPc 255 [0xFF]) = .next { atPc 255 [0xFF] with fault := some .invalidOpcode } :=
  ⟨by decide, rfl⟩
theorem witness_operandByteAbove255 :
    ((atPc 255 [0x47]).terminal = false ∧ (atPc 255 [0x47]).mem.read 255 = some (defaultOpcodes.byte .prn) ∧
      255 < 255 + Mnemonic.prn.length - 1) ∧
    ((atPc 254 [0x82]).terminal = false ∧ (atPc 254 [0x82]).mem.read 254 = some (defaultOpcodes.byte .ldi) ∧
      255 < 254 + Mnemonic.ldi.length - 1) := by decide
theorem witness_registerOperandAbove7 :
    ((atPc 253 []).pc.toNat + (Instr.mul 0 8).mnemonic.length - 1 ≤ 255 ∧ ∃ v ∈ (Instr.mul 0 8).registerOperands, 7 < v.toNat) ∧
    ((atPc 254 []).pc.toNat + (Instr.jeq 8).mnemonic.length - 1 ≤ 255 ∧ ∃ v ∈ (Instr.jeq 8).registerOperands, 7 < v.toNat) := by
  decide
theorem witness_firstCause : (atPc 254 [0x50, 0x01]).terminal = false ∧
    (atPc 254 [0x50, 0x01]).firstCause defaultOpcodes = some .outOfBounds ∧
    (atPc 253 [0x50, 0x01]).firstCause defaultOpcodes = none ∧
    ((atPc 254 [0x50, 0x01]).setSp 0).firstCause defaultOpcodes = some .stackFault := by decide
theorem witness_raisingStep : ∃ t, (atPc 0 [0x11]).terminal = false ∧
    stepWith defaultOpcodes latch ((atPc 0 [0x11]).setSp 255) = .next t ∧ t.fault = some .stackFault :=
  ⟨_, by decide, rfl, rfl⟩
theorem witness_terminal :
    ((atPc 0 []).withFault .outOfBounds).fault = some .outOfBounds ∧
    (atPc 0 []).setHalted.fault = none ∧ (atPc 0 []).setHalted.halted = true := by decide
theorem witness_threeWays :
    (atPc 0 [0x82, 0, 0]).terminal = false ∧ ((atPc 0 [0x82, 0, 0]).stepTransaction defaultOpcodes latch).2 = .continued ∧
    (atPc 0 [0x01]).terminal = false ∧ ((atPc 0 [0x01]).stepTransaction defaultOpcodes latch).2 = .halted ∧
    (atPc 0 [0x00]).terminal = false ∧
    ((atPc 0 [0x00]).stepTransaction defaultOpcodes latch).2 = .faulted .invalidOpcode := by decide
theorem witness_pcAdvances :
    (∃ t, exec (.ldi 7 1) (atPc 253 []) = .next t ∧ (atPc 253 []).fault = none ∧ t.fault = none ∧ t.pc.toNat = 256) ∧
    (∃ t, exec (.jmp 7) (atPc 254 []) = .next t ∧ (atPc 254 []).fault = none ∧ t.fault = none ∧ t.pc.toNat = 0xF4) :=
  ⟨⟨_, rfl, rfl, rfl, by decide⟩, ⟨_, rfl, rfl, rfl, by decide⟩⟩
/-- LDI at 253, PUSH and POP at 254 at the last SP each can use, and a JEQ at 254 that is not taken. -/
theorem witness_endingAt255 :
    ((atPc 253 [0x82, 7, 0x2A]).terminal = false ∧
      (atPc 253 [0x82, 7, 0x2A]).fetchDecode defaultOpcodes latch = .ok (.ldi 7 0x2A) ∧
      (Instr.ldi 7 0x2A).wellFormed = true ∧ (atPc 253 [0x82, 7, 0x2A]).stackLeavesMemory .ldi 7 = false ∧
      253 + (Instr.ldi 7 0x2A).mnemonic.length = 256) ∧
    (((atPc 254 [0x45, 7]).setSp 1).fetchDecode defaultOpcodes latch = .ok (.push 7) ∧
      (Instr.push 7).wellFormed = true ∧ ((atPc 254 [0x45, 7]).setSp 1).stackLeavesMemory .push 7 = false) ∧
    (((atPc 254 [0x46, 6]).setSp 254).fetchDecode defaultOpcodes latch = .ok (.pop 6) ∧
      (Instr.pop 6).wellFormed = true ∧ ((atPc 254 [0x46, 6]).setSp 254).stackLeavesMemory .pop 6 = false) ∧
    ((atPc 254 [0x55, 3]).fetchDecode defaultOpcodes latch = .ok (.jeq 3) ∧
      (Instr.jeq 3).wellFormed = true ∧ (atPc 254 [0x55, 3]).fl.getLsbD 0 = false ∧
      254 + (Instr.jeq 3).mnemonic.length = 256) :=
  ⟨⟨by decide, rfl, by decide, by decide, by decide⟩, ⟨rfl, by decide, by decide⟩, ⟨rfl, by decide, by decide⟩,
    rfl, by decide, by decide, by decide⟩
theorem witness_runEnds :
    (∃ t, (atPc 255 [0x01]).terminal = false ∧ stepWith defaultOpcodes latch (atPc 255 [0x01]) = .next t ∧
      t.succeeded = true) ∧
    (∃ t, (atPc 255 [0x47]).terminal = false ∧ stepWith defaultOpcodes latch (atPc 255 [0x47]) = .next t ∧
      t.terminal = true ∧ t.succeeded = false) :=
  ⟨⟨_, by decide, rfl, rfl⟩, ⟨_, by decide, rfl, rfl, rfl⟩⟩
/-- Where an instruction of LEN 1, 2 or 3 fits and where it does not. -/
theorem witness_fits :
    (atPc 255 []).pc.toNat ≤ 255 ∧ 255 < (atPc 256 []).pc.toNat ∧
    (atPc 254 []).pc.toNat ≤ 254 ∧ 254 < (atPc 255 []).pc.toNat ∧
    (atPc 253 []).pc.toNat ≤ 253 ∧ 253 < (atPc 254 []).pc.toNat := by decide
/-- Operand bytes at the ends of the legal range, and the first illegal one: LDI, PRN, MUL, ADD, CMP, JMP, JEQ, JNE. -/
theorem witness_operands :
    (0 : Byte).toNat = (0 : Fin 8).val ∧ (7 : Byte).toNat = (7 : Fin 8).val ∧ 7 < (8 : Byte).toNat := by decide
theorem witness_hlt :
    ((atPc 255 []).pc.toNat ≤ 255 ∧ ∃ t, exec .hlt (atPc 255 []) = .next t ∧ t.halted = true) ∧
    255 < (atPc 256 []).pc.toNat :=
  ⟨⟨by decide, _, rfl, rfl⟩, by decide⟩
theorem witness_ldi :
    ((atPc 253 []).pc.toNat ≤ 253 ∧ (7 : Byte).toNat = (7 : Fin 8).val ∧
      ∃ t, exec (.ldi 7 0) (atPc 253 []) = .next t ∧ t.sp = 0) ∧ 253 < (atPc 254 []).pc.toNat :=
  ⟨⟨by decide, by decide, _, rfl, by decide⟩, by decide⟩
theorem witness_prn :
    ((atPc 254 []).pc.toNat ≤ 254 ∧ (7 : Byte).toNat = (7 : Fin 8).val ∧
      ∃ t, exec (.prn 7) (atPc 254 []) = .next t ∧ t.out = [0xF4]) ∧ 254 < (atPc 255 []).pc.toNat :=
  ⟨⟨by decide, by decide, _, rfl, by decide⟩, by decide⟩
theorem witness_mul :
    ((atPc 253 []).pc.toNat ≤ 253 ∧ (7 : Byte).toNat = (7 : Fin 8).val ∧
      ∃ t, exec (.mul 7 7) (atPc 253 []) = .next t ∧ t.sp = 0x90) ∧ 253 < (atPc 254 []).pc.toNat :=
  ⟨⟨by decide, by decide, _, rfl, by decide⟩, by decide⟩
theorem witness_add :
    ((atPc 253 []).pc.toNat ≤ 253 ∧ (7 : Byte).toNat = (7 : Fin 8).val ∧
      ∃ t, exec (.add 7 7) (atPc 253 []) = .next t ∧ t.sp = 0xE8) ∧ 253 < (atPc 254 []).pc.toNat :=
  ⟨⟨by decide, by decide, _, rfl, by decide⟩, by decide⟩
theorem witness_cmp :
    ((atPc 253 []).pc.toNat ≤ 253 ∧ (0 : Byte).toNat = (0 : Fin 8).val ∧ (7 : Byte).toNat = (7 : Fin 8).val ∧
      ∃ t, exec (.cmp 0 7) (atPc 253 []) = .next t ∧ t.fl = 0x04) ∧ 253 < (atPc 254 []).pc.toNat :=
  ⟨⟨by decide, by decide, by decide, _, rfl, by decide⟩, by decide⟩
/-- PUSH: SP at 0, and at 1 with SP itself as the operand. -/
theorem witness_push :
    ((atPc 254 []).pc.toNat ≤ 254 ∧ (7 : Byte).toNat ≤ 7 ∧ ((atPc 254 []).setSp 0).sp.toNat = 0) ∧
    ((atPc 254 []).pc.toNat ≤ 254 ∧ (7 : Byte).toNat = (7 : Fin 8).val ∧ ((atPc 254 []).setSp 1).sp.toNat ≠ 0) ∧
    (254 < (atPc 255 []).pc.toNat ∧ 7 < (8 : Byte).toNat) := by decide
/-- POP: SP at 255 for a register other than 7, the byte 255 for register 7, and both completions, at SP 254 and for the
byte 254. -/
theorem witness_pop :
    ((6 : Byte).toNat < 7 ∧ ((atPc 254 []).setSp 255).sp.toNat = 255) ∧
    ((7 : Byte).toNat = 7 ∧ ((atPc 254 []).store 0xF4 255).mem.read (atPc 254 []).sp.toNat = some 255) ∧
    ((6 : Byte).toNat = (6 : Fin 8).val ∧ (6 : Fin 8) ≠ 7 ∧ ((atPc 254 []).setSp 254).sp.toNat ≠ 255 ∧
      ((atPc 254 []).setSp 254).mem.read ((atPc 254 []).setSp 254).sp.toNat = some 0) ∧
    (((atPc 254 []).store 0xF4 254).mem.read (atPc 254 []).sp.toNat = some 254 ∧ (254 : Byte) ≠ 255) ∧
    (atPc 254 []).pc.toNat ≤ 254 ∧ 254 < (atPc 255 []).pc.toNat := by decide
/-- CALL: the three faults and the last address at which it completes. -/
theorem witness_call :
    ((atPc 254 []).pc.toNat ≤ 254 ∧ (7 : Byte).toNat ≤ 7 ∧ ((atPc 254 []).setSp 0).sp.toNat = 0) ∧
    ((atPc 254 []).pc.toNat = 254 ∧ (7 : Byte).toNat ≤ 7 ∧ (atPc 254 []).sp.toNat ≠ 0) ∧
    ((atPc 253 []).pc.toNat ≤ 253 ∧ (7 : Byte).toNat = (7 : Fin 8).val ∧ ((atPc 253 []).setSp 1).sp.toNat ≠ 0) ∧
    254 < (atPc 255 []).pc.toNat := by decide
theorem witness_ret :
    ((atPc 255 []).pc.toNat ≤ 255 ∧ ((atPc 255 []).setSp 255).sp.toNat = 255) ∧
    ((atPc 255 []).pc.toNat ≤ 255 ∧ ((atPc 255 []).setSp 254).sp.toNat ≠ 255 ∧
      ((atPc 255 []).setSp 254).mem.read ((atPc 255 []).setSp 254).sp.toNat = some 0) ∧
    255 < (atPc 256 []).pc.toNat := by decide
theorem witness_jumps :
    ((atPc 254 []).pc.toNat ≤ 254 ∧ (7 : Byte).toNat = (7 : Fin 8).val) ∧ 254 < (atPc 255 []).pc.toNat ∧
    ((atPc 254 []).setFl 0x01).fl.getLsbD 0 = true ∧ (atPc 254 []).fl.getLsbD 0 = false := by decide
theorem witness_conditionalJumps :
    ∃ t, (atPc 253 []).pc.toNat ≤ 253 ∧ (0 : Byte).toNat = (0 : Fin 8).val ∧ (7 : Byte).toNat = (7 : Fin 8).val ∧
      exec (.cmp 0 7) (atPc 253 []) = .next t ∧
      (({ atPc 254 [] with fl := t.fl } : State).fl = t.fl ∧ ({ atPc 254 [] with fl := t.fl } : State).pc.toNat ≤ 254) :=
  ⟨_, by decide, by decide, by decide, rfl, rfl, by decide⟩
theorem witness_pushThenPop :
    (atPc 252 [0x45, 6, 0x46, 6]).terminal = false ∧ (6 : Byte).toNat = (6 : Fin 8).val ∧ (6 : Fin 8) ≠ 7 ∧
    (atPc 252 [0x45, 6, 0x46, 6]).sp.toNat ≠ 0 ∧
    (atPc 252 [0x45, 6, 0x46, 6]).mem.read 252 = some (defaultOpcodes.byte .push) ∧
    (atPc 252 [0x45, 6, 0x46, 6]).mem.read 253 = some 6 ∧
    (atPc 252 [0x45, 6, 0x46, 6]).mem.read 254 = some (defaultOpcodes.byte .pop) ∧
    (atPc 252 [0x45, 6, 0x46, 6]).mem.read 255 = some 6 ∧
    (atPc 252 []).sp.toNat ≠ 252 + 3 ∧ (atPc 252 []).sp.toNat ≠ 252 + 4 := by decide
/-- S4, at the last address a CALL may stand at. -/
theorem witness_callThenRet :
    let s := ((atPc 253 [0x50, 1]).setReg 1 0x20).store 0x20 0x11
    s.terminal = false ∧ s.pc.toNat ≤ 253 ∧ (1 : Byte).toNat = (1 : Fin 8).val ∧ (1 : Fin 8) ≠ 7 ∧ s.sp.toNat ≠ 0 ∧
    s.mem.read s.pc.toNat = some (defaultOpcodes.byte .call) ∧ s.mem.read (s.pc.toNat + 1) = some 1 ∧
    s.mem.read (s.reg 1).toNat = some (defaultOpcodes.byte .ret) ∧ (s.reg 1).toNat ≠ s.sp.toNat - 1 := by decide
/-- P6: the byte at 8 becomes HLT. -/
theorem witness_nextFetch :
    let s := ((atPc 6 [0x45, 0, 0xFF]).setSp 9).setReg 0 1
    s.terminal = false ∧ (0 : Byte).toNat = (0 : Fin 8).val ∧ (0 : Fin 8) ≠ 7 ∧ s.sp.toNat = s.pc.toNat + 3 ∧
    s.mem.read s.pc.toNat = some (defaultOpcodes.byte .push) ∧ s.mem.read (s.pc.toNat + 1) = some 0 ∧
    s.reg 0 = defaultOpcodes.byte .hlt := by decide
/-- J12. -/
theorem witness_jumpToItself :
    let s := (atPc 20 [0x54, 3]).setReg 3 20
    s.terminal = false ∧ (3 : Byte).toNat = (3 : Fin 8).val ∧
    s.mem.read s.pc.toNat = some (defaultOpcodes.byte .jmp) ∧ s.mem.read (s.pc.toNat + 1) = some 3 ∧
    (s.reg 3).toNat = s.pc.toNat := by decide
/-- Each clause's difference occurs. -/
theorem witness_onlyListedWrite :
    (answers (exec (.cmp 0 0) State.reset) (fun t => t.fl != State.reset.fl) &&
      answers (exec (.prn 0) State.reset) (fun t => t.out != State.reset.out) &&
      answers (exec .hlt State.reset) (fun t => t.halted != State.reset.halted) &&
      answers (exec (.call 0) State.reset) (fun t => t.mem.read 0xF3 != State.reset.mem.read 0xF3) &&
      answers (exec (.pop 0) (State.reset.store 0xF4 1)) (fun t => t.reg 0 != 0 && t.sp != 0xF4)) = true := by decide
theorem witness_onlyCmpWritesFl :
    (∃ t, exec (.jeq 3) State.reset = .next t ∧ ∀ a b, Instr.jeq 3 ≠ .cmp a b) ∧
    (∃ t u, exec (.jeq 3) State.reset = .next t ∧ exec (.jeq 3) { State.reset with fl := 0x01 } = .next u ∧ t.pc ≠ u.pc) :=
  ⟨⟨_, rfl, nofun⟩, ⟨_, _, rfl, rfl, by decide⟩⟩
theorem witness_noGreaterOrLess : ∃ t, (0xFE : Byte).getLsbD 0 = State.reset.fl.getLsbD 0 ∧
    exec (.jne 3) State.reset = .next t ∧ t.fault = none :=
  ⟨_, by decide, rfl, rfl⟩
theorem witness_onlyFetchAndStack :
    (∀ k : Nat, k ≤ 2 → Memory.read [(3, 1)] ((State.reset).pc.toNat + k) = State.reset.mem.read (State.reset.pc.toNat + k)) ∧
    (∃ t, exec (.push 0) State.reset = .next t ∧ State.reset.fault = none ∧ t.fault = none) ∧
    (∃ t, exec (.call 0) (State.reset.setSp 0) = .next t ∧ (State.reset.setSp 0).fault = none ∧ t.fault ≠ none) ∧
    (∃ t, exec .ret State.reset = .next t ∧
      Memory.read [(3, 1)] State.reset.sp.toNat = State.reset.mem.read State.reset.sp.toNat) ∧
    (∃ t, exec (.jmp 0) State.reset = .next t ∧ (Instr.jmp 0).mnemonic ∉ [.push, .call, .pop, .ret]) := by
  refine ⟨fun k hk => ?_, ⟨_, rfl, rfl, rfl⟩, ⟨_, rfl, rfl, by decide⟩, ⟨_, rfl, by decide⟩,
    ⟨_, rfl, by decide⟩⟩
  match k with
  | 0 => decide
  | 1 => decide
  | 2 => decide
  | k + 3 => omega
theorem witness_flagsStay : ∃ t, stepWith defaultOpcodes latch ((atPc 0 [0xA7, 0, 7]).setFl 0x01) = .next t ∧
    ((atPc 0 [0xA7, 0, 7]).setFl 0x01).fl = 0x01 ∧ t.fl = 0x04 :=
  ⟨_, rfl, rfl, by decide⟩
theorem witness_outputLog :
    (∃ t, stepWith defaultOpcodes latch (atPc 0 [0x47, 7]) = .next t ∧ t.out = [0xF4]) ∧
    (∃ t, exec (.prn 7) State.reset = .next t ∧ t.fault = none) :=
  ⟨⟨_, rfl, by decide⟩, ⟨_, rfl, rfl⟩⟩
theorem witness_stackFault :
    (∃ t, (atPc 254 []).fault = none ∧ (atPc 254 []).pc.toNat + (Instr.pop 7).mnemonic.length - 1 ≤ 255 ∧
      (Instr.pop 7).wellFormed = true ∧ exec (.pop 7) ((atPc 254 []).store 0xF4 255) = .next t ∧
      t.fault = some .stackFault) ∧
    (∃ t, exec (.pop 6) ((atPc 254 []).setSp 255) = .next t ∧ t.fault = some .stackFault) ∧
    (∃ t, exec (.call 0) ((atPc 254 []).setSp 0) = .next t ∧ t.fault = some .stackFault) ∧
    (∃ t, exec (.ldi 7 0) (atPc 253 []) = .next t ∧ t.fault = none) :=
  ⟨⟨_, rfl, by decide, by decide, rfl, rfl⟩, ⟨_, rfl, rfl⟩, ⟨_, rfl, rfl⟩, ⟨_, rfl, rfl⟩⟩
theorem witness_writeBounds :
    (∃ m', Memory.write [] 255 1 = some m' ∧ m'.wf = true) ∧ Memory.write [] 256 1 = none := by
  exact ⟨⟨_, rfl, by decide⟩, rfl⟩
theorem witness_canonicalMemories : Memory.wf [(0, 1), (255, 0xFF)] = true ∧ Memory.wf [(0, 0)] = false ∧
    Memory.wf [(5, 1), (5, 2)] = false ∧ Memory.wf [(256, 1)] = false := by decide
theorem witness_launch : (List.replicate 256 (0xFF : Byte)).length ≤ 256 ∧ ([] : List Byte).length ≤ 256 :=
  ⟨List.length_replicate.le, Nat.zero_le 256⟩
theorem witness_loadOnlyOnce :
    (Session.start.phase = .justReset ∧ 256 < (List.replicate 257 (0 : Byte)).length) ∧
    ((Session.start.act defaultOpcodes latch (.load [0x01])).2 = .done ∧
      (Session.start.act defaultOpcodes latch (.writeCell 255 1)).2 = .done ∧
      (Session.start.act defaultOpcodes latch .step).1.phase ≠ .justReset ∧
      Transaction.reset ∉ [Transaction.step, .observe]) := by
  refine ⟨⟨rfl, ?_⟩, by decide, by decide, nofun, by simp⟩
  rw [List.length_replicate]; decide
theorem witness_stepTransaction :
    ((Session.mk .launched (atPc 0 [0x01])).phase ≠ .ran ∧ (atPc 0 [0x01]).terminal = false) ∧
    ((Session.mk .stepped (atPc 0 [0x01]).setHalted).phase ≠ .ran ∧ (atPc 0 [0x01]).setHalted.terminal = true) ∧
    ((Session.mk .ran ((atPc 0 [0x01]).withFault .outOfBounds)).phase = .ran ∧
      ((atPc 0 [0x01]).withFault .outOfBounds).terminal = true) ∧
    ((Session.mk .ran (atPc 0 [0x01])).phase = .ran ∧ (atPc 0 [0x01]).terminal = false) := by decide
theorem witness_run :
    ((Session.mk .launched (atPc 0 [0x01])).act defaultOpcodes latch (.run 1)).2 = .reported .halted ∧
    ((Session.mk .launched (atPc 0 [0x01])).act defaultOpcodes latch (.run 0)).2 = .unfinished ∧
    ((Session.mk .justReset (atPc 0 [0x01]).setHalted).act defaultOpcodes latch (.run 0)).2 = .reported .halted ∧
    Phase.launched ∉ [Phase.stepped, Phase.ran] ∧ Phase.ran ∈ [Phase.stepped, Phase.ran] := by decide
theorem witness_everyTransaction : (Session.mk .stepped (atPc 253 [0x82, 0, 0x2A])).machine.Inv :=
  ⟨by decide, by decide, by decide, by decide⟩
/-- X5's bound for the accessor `write`: the last address and the first refused one, right after reset, after a write,
after a load and after a step. -/
theorem witness_hostWrite :
    ((Session.start.act defaultOpcodes latch (.writeCell 255 7)).2 = .done ∧
      ((Session.start.act defaultOpcodes latch (.writeCell 255 7)).1.act defaultOpcodes latch (.writeCell 0 1)).2 = .done ∧
      (Session.start.act defaultOpcodes latch (.writeCell 256 7)).2 = .outOfBounds) ∧
    ((Session.start.act defaultOpcodes latch (.load [0x01])).1.phase = .launched ∧
      ((Session.start.act defaultOpcodes latch (.load [0x01])).1.act defaultOpcodes latch (.writeCell 255 7)).2 =
        .outOfOrder) ∧
    ((Session.mk .stepped (atPc 0 [])).act defaultOpcodes latch (.writeCell 255 7)).2 = .outOfOrder ∧
    ((Session.mk .stepped (atPc 0 [])).act defaultOpcodes latch (.writeCell 256 7)).2 = .outOfBounds := by decide
/-- A launched machine that a step changes; the one run, of no steps too; a run after a step. -/
theorem witness_orderOfUse :
    (((Session.mk .launched (atPc 0 [0x01])).act defaultOpcodes latch .step).1.machine ≠ atPc 0 [0x01]) ∧
    (Phase.launched ≠ .stepped ∧ ((Session.mk .launched (atPc 0 [0x01])).act defaultOpcodes latch (.run 0)).1.phase = .ran ∧
      Transaction.reset ∉ [Transaction.step, .run 1, .load []]) ∧
    (Phase.launched ≠ .ran ∧
      ((Session.mk .launched (atPc 0 [0x01])).act defaultOpcodes latch .step).1.phase = .stepped) := by decide
theorem witness_observing :
    Session.start.machine.mem.read 255 = some 0 ∧ (255 : Nat) ≤ 255 ∧ (255 : Nat) < 256 := by decide

end Sys2Proof.Tests
end

section
/-! FL and the rest of the machine (spec/10_state.md R32, R33): an instruction executed from two states that differ in
FL alone gives next states that differ in FL and, only where bit E differed, in pc. -/

namespace Sys2Proof.Machine

@[simp] theorem State.setFl_sp (s : State) (v : Byte) : (s.setFl v).sp = s.sp := rfl
@[simp] theorem State.setFl_load (s : State) (v a : Byte) : (s.setFl v).load a = s.load a := rfl

/-- Both results are next states, which differ at most in FL and, unless `sameE` holds, in pc. -/
def AgreeUpToFl (sameE : Prop) (r r' : Result) : Prop :=
  ∃ (t : State) (p : PcWord) (w : Byte), r = .next t ∧ r' = .next { t with pc := p, fl := w } ∧ (sameE → p = t.pc)

section
variable {sameE : Prop} {s : State} {v : Byte}

/-! ### What agrees -/

theorem agreeUpToFl_next (t : State) (w : Byte) : AgreeUpToFl sameE (.next t) (.next (t.setFl w)) :=
  ⟨t, t.pc, w, rfl, rfl, fun _ => rfl⟩

theorem agreeUpToFl_raise (k : Fault) : AgreeUpToFl sameE (raise k s) (raise k (s.setFl v)) :=
  agreeUpToFl_next (s.withFault k) v

/-- A conditional jump on E: the two sides choose the same one of two pcs when E is the same. -/
theorem agreeUpToFl_branch (s : State) (v : Byte) (p q : PcWord) :
    AgreeUpToFl (flagE v = flagE s.fl) (.next (if flagE s.fl then { s with pc := p } else { s with pc := q }))
      (.next (if flagE v then { s.setFl v with pc := p } else { s.setFl v with pc := q })) := by
  refine ⟨_, if flagE v then p else q, v, rfl, ?_, fun same => ?_⟩
  · cases flagE v <;> cases flagE s.fl <;> rfl
  · rw [same]
    cases flagE s.fl <;> rfl

/-! ### The operand checks read nothing of FL -/

theorem agreeUpToFl_needBytes {len : Nat} {rest rest' : Result} (h : AgreeUpToFl sameE rest rest') :
    AgreeUpToFl sameE (needBytes len s rest) (needBytes len (s.setFl v) rest') := by
  rcases Nat.lt_or_ge 255 (s.pc.toNat + len - 1) with short | fits
  · rw [needBytes_short short, needBytes_short (s := s.setFl v) short]
    exact agreeUpToFl_raise .outOfBounds
  · rw [needBytes_fits fits, needBytes_fits (s := s.setFl v) fits]
    exact h

theorem agreeUpToFl_needRegister {a : Byte} {rest rest' : Fin 8 → Result}
    (h : ∀ i, AgreeUpToFl sameE (rest i) (rest' i)) :
    AgreeUpToFl sameE (needRegister a s rest) (needRegister a (s.setFl v) rest') := by
  unfold needRegister
  cases registerIndex a with
  | none => exact agreeUpToFl_raise .outOfBounds
  | some i => exact h i

theorem agreeUpToFl_formatZ {rest rest' : Result} (h : AgreeUpToFl sameE rest rest') :
    AgreeUpToFl sameE (formatZ s rest) (formatZ (s.setFl v) rest') :=
  agreeUpToFl_needBytes h

theorem agreeUpToFl_formatR {a : Byte} {rest rest' : Fin 8 → Result} (h : ∀ i, AgreeUpToFl sameE (rest i) (rest' i)) :
    AgreeUpToFl sameE (formatR a s rest) (formatR a (s.setFl v) rest') :=
  agreeUpToFl_needBytes (agreeUpToFl_needRegister h)

theorem agreeUpToFl_formatRI {a : Byte} {rest rest' : Fin 8 → Result} (h : ∀ i, AgreeUpToFl sameE (rest i) (rest' i)) :
    AgreeUpToFl sameE (formatRI a s rest) (formatRI a (s.setFl v) rest') :=
  agreeUpToFl_needBytes (agreeUpToFl_needRegister h)

theorem agreeUpToFl_formatRR {a b : Byte} {rest rest' : Fin 8 → Fin 8 → Result}
    (h : ∀ i j, AgreeUpToFl sameE (rest i j) (rest' i j)) :
    AgreeUpToFl sameE (formatRR a b s rest) (formatRR a b (s.setFl v) rest') :=
  agreeUpToFl_needBytes (agreeUpToFl_needRegister fun i => agreeUpToFl_needRegister (h i))

theorem agreeUpToFl_ite {c : Prop} [Decidable c] {q r q' r' : Result} (hq : AgreeUpToFl sameE q q')
    (hr : AgreeUpToFl sameE r r') : AgreeUpToFl sameE (if c then q else r) (if c then q' else r') := by
  split
  · exact hq
  · exact hr

end

/-! ### Every instruction -/

/-- Executing an instruction from two states that differ in FL alone: JEQ and JNE alone read FL, its bit E, and it
reaches pc alone. -/
theorem exec_agreeUpToFl (i : Instr) (s : State) (v : Byte) :
    AgreeUpToFl (flagE v = flagE s.fl) (exec i s) (exec i (s.setFl v)) := by
  cases i with
  | hlt => exact agreeUpToFl_formatZ (agreeUpToFl_next _ v)
  | ldi a b => exact agreeUpToFl_formatRI fun _ => agreeUpToFl_next _ v
  | prn a => exact agreeUpToFl_formatR fun _ => agreeUpToFl_next _ v
  | mul a b => exact agreeUpToFl_formatRR fun _ _ => agreeUpToFl_next _ v
  | add a b => exact agreeUpToFl_formatRR fun _ _ => agreeUpToFl_next _ v
  | push a =>
    refine agreeUpToFl_formatR fun i => ?_
    rw [State.setFl_sp]
    cases stepDown s.sp with
    | none => exact agreeUpToFl_raise .stackFault
    | some sp => exact agreeUpToFl_next _ v
  | pop a =>
    refine agreeUpToFl_formatR fun i => ?_
    simp only [State.setFl_sp, State.setFl_load]
    cases stepUp (if i = Config.spIndex then s.load s.sp else s.sp) with
    | none => exact agreeUpToFl_raise .stackFault
    | some sp => exact agreeUpToFl_next _ v
  | call a =>
    refine agreeUpToFl_formatR fun i => ?_
    rw [State.setFl_sp]
    cases stepDown s.sp with
    | none => exact agreeUpToFl_raise .stackFault
    | some sp => exact agreeUpToFl_ite (agreeUpToFl_raise .outOfBounds) (agreeUpToFl_next _ v)
  | ret =>
    refine agreeUpToFl_formatZ ?_
    rw [State.setFl_sp]
    cases stepUp s.sp with
    | none => exact agreeUpToFl_raise .stackFault
    | some sp => exact agreeUpToFl_next _ v
  | cmp a b => exact agreeUpToFl_formatRR fun i j => agreeUpToFl_next _ (compareFlags (s.reg i) (s.reg j))
  | jmp a => exact agreeUpToFl_formatR fun _ => agreeUpToFl_next _ v
  | jeq a => exact agreeUpToFl_formatR fun i => agreeUpToFl_branch s v (zext9 (s.reg i)) (s.pc + 2)
  | jne a => exact agreeUpToFl_formatR fun i => agreeUpToFl_branch s v (s.pc + 2) (zext9 (s.reg i))

/-- CMP is the only writer of FL. -/
theorem exec_fl_of_ne_cmp {i : Instr} {s t : State} (h : exec i s = .next t) (notCmp : ∀ a b, i ≠ .cmp a b) :
    t.fl = s.fl := by
  rcases exec_cases h with rfl | rfl | effect
  · rfl
  · rfl
  · cases effect with
    | cmp => exact absurd rfl (notCmp _ _)
    | jeq | jne => split <;> rfl
    | hlt | ldi | prn | mul | add | push | pop | call | ret | jmp => rfl

/-- Settles O42: `exec_fl_of_ne_cmp`, and FL reaches nothing but FL and pc by `exec_agreeUpToFl`. -/
theorem onlyCmpWritesFlAndNothingCopiesIt : Obligations.OnlyCmpWritesFlAndNothingCopiesIt := by
  refine ⟨fun i s t => exec_fl_of_ne_cmp, fun i v s t u ht hu => ?_⟩
  obtain ⟨t', p, w, ht', hu', -⟩ := exec_agreeUpToFl i s v
  cases ht.symm.trans ht'
  cases hu.symm.trans hu'
  exact ⟨fun _ _ => rfl, fun _ => rfl, ⟨rfl, rfl⟩, rfl⟩

/-- Settles O43: with E the same, the next states differ in FL alone by `exec_agreeUpToFl`. -/
theorem noInstructionReadsGreaterOrLess : Obligations.NoInstructionReadsGreaterOrLess := by
  intro i v s t sameE ht
  obtain ⟨t', p, w, ht', hu, samePc⟩ := exec_agreeUpToFl i s v
  cases ht.symm.trans ht'
  cases samePc sameE
  exact ⟨_, hu, rfl⟩

end Sys2Proof.Machine
end

section
/-! Memory and the rest of the machine (spec/20_memory.md R52): an instruction executed from two states that differ in
memory alone either leaves both memories as they were, or stores the same byte at the same address in both. -/

namespace Sys2Proof.Machine

/-! ### The operand checks read pc alone -/

section
variable {P : Result → Result → Prop} {s s' : State}

/-- What relates the two raises and the two execute blocks relates the two checked instructions, from states with one
pc. The same holds of each format below. -/
theorem needBytes_related {len : Nat} {rest rest' : Result} (samePc : s'.pc = s.pc)
    (raised : P (raise .outOfBounds s) (raise .outOfBounds s')) (executed : P rest rest') :
    P (needBytes len s rest) (needBytes len s' rest') := by
  unfold needBytes
  rw [samePc]
  split
  · exact raised
  · exact executed

theorem needRegister_related {a : Byte} {rest rest' : Fin 8 → Result}
    (raised : P (raise .outOfBounds s) (raise .outOfBounds s')) (executed : ∀ i, P (rest i) (rest' i)) :
    P (needRegister a s rest) (needRegister a s' rest') := by
  unfold needRegister
  cases registerIndex a with
  | none => exact raised
  | some i => exact executed i

theorem formatZ_related {rest rest' : Result} (samePc : s'.pc = s.pc)
    (raised : P (raise .outOfBounds s) (raise .outOfBounds s')) (executed : P rest rest') :
    P (formatZ s rest) (formatZ s' rest') :=
  needBytes_related samePc raised executed

theorem formatR_related {a : Byte} {rest rest' : Fin 8 → Result} (samePc : s'.pc = s.pc)
    (raised : P (raise .outOfBounds s) (raise .outOfBounds s')) (executed : ∀ i, P (rest i) (rest' i)) :
    P (formatR a s rest) (formatR a s' rest') :=
  needBytes_related samePc raised (needRegister_related raised executed)

theorem formatRI_related {a : Byte} {rest rest' : Fin 8 → Result} (samePc : s'.pc = s.pc)
    (raised : P (raise .outOfBounds s) (raise .outOfBounds s')) (executed : ∀ i, P (rest i) (rest' i)) :
    P (formatRI a s rest) (formatRI a s' rest') :=
  needBytes_related samePc raised (needRegister_related raised executed)

theorem formatRR_related {a b : Byte} {rest rest' : Fin 8 → Fin 8 → Result} (samePc : s'.pc = s.pc)
    (raised : P (raise .outOfBounds s) (raise .outOfBounds s')) (executed : ∀ i j, P (rest i j) (rest' i j)) :
    P (formatRR a b s rest) (formatRR a b s' rest') :=
  needBytes_related samePc raised (needRegister_related raised fun i => needRegister_related raised (executed i))

end

/-! ### Replacing memory -/

/-- The same machine with another memory. -/
def State.withMem (s : State) (m : Memory) : State :=
  { s with mem := m }

@[simp] theorem State.withMem_sp (s : State) (m : Memory) : (s.withMem m).sp = s.sp := rfl
@[simp] theorem State.withMem_load (s : State) (m : Memory) (a : Byte) : (s.withMem m).load a = m.cell a.toNat := rfl

@[simp] theorem State.advance_sp (s : State) (n : Nat) : (s.advance n).sp = s.sp := rfl
@[simp] theorem State.jumpTo_sp (s : State) (v : Byte) : (s.jumpTo v).sp = s.sp := rfl
@[simp] theorem State.store_sp (s : State) (a v : Byte) : (s.store a v).sp = s.sp := rfl

/-- A read at a byte's address is always in range, so equal reads there are equal cells. -/
theorem Memory.cell_eq_of_read_eq {m n : Memory} {a : Byte} (h : m.read a.toNat = n.read a.toNat) :
    m.cell a.toNat = n.cell a.toNat := by
  rw [read_of_lt m a.isLt, read_of_lt n a.isLt] at h
  exact Option.some.inj h

/-- Fetch and decode read the cells at pc, pc + 1 and pc + 2 alone. -/
theorem fetchDecode_withMem {s : State} {m : Memory} (c : OpcodeMap) (d : Nat → Byte)
    (same : ∀ k : Nat, k ≤ 2 → m.read (s.pc.toNat + k) = s.mem.read (s.pc.toNat + k)) :
    (s.withMem m).fetchDecode c d = s.fetchDecode c d := by
  have opcode : m.read s.pc.toNat = s.mem.read s.pc.toNat := same 0 (by decide)
  have latch : ∀ k, k ≤ 2 → (s.withMem m).operandLatch d k = s.operandLatch d k := by
    intro k hk
    simp only [State.operandLatch, State.withMem, same k hk]
  simp only [State.fetchDecode, latch 1 (by decide), latch 2 (by decide)]
  simp only [State.withMem, opcode]

/-! ### Every instruction but PUSH and CALL leaves memory alone -/

/-- Both results are next states, which differ in memory alone, and the second holds `m`. -/
def AgreeAndKeep (m : Memory) (r r' : Result) : Prop :=
  ∃ t : State, r = .next t ∧ r' = .next (t.withMem m)

theorem agreeAndKeep_next (t : State) (m : Memory) : AgreeAndKeep m (.next t) (.next (t.withMem m)) :=
  ⟨t, rfl, rfl⟩

theorem agreeAndKeep_raise (k : Fault) (s : State) (m : Memory) : AgreeAndKeep m (raise k s) (raise k (s.withMem m)) :=
  agreeAndKeep_next (s.withFault k) m

theorem agreeAndKeep_branch (e : Bool) (t u : State) (m : Memory) :
    AgreeAndKeep m (.next (if e then t else u)) (.next (if e then t.withMem m else u.withMem m)) := by
  cases e
  · exact agreeAndKeep_next u m
  · exact agreeAndKeep_next t m

/-- Executing an instruction that stores nothing: POP and RET alone read memory, the cell at SP. -/
theorem exec_agreeAndKeep {i : Instr} {s : State} {m : Memory} (noStore : i.mnemonic ∉ [.push, .call])
    (sameRead : i.mnemonic ∈ [.pop, .ret] → m.cell s.sp.toNat = s.load s.sp) :
    AgreeAndKeep m (exec i s) (exec i (s.withMem m)) := by
  have raised (k : Fault) := agreeAndKeep_raise k s m
  cases i with
  | hlt => exact formatZ_related rfl (raised _) (agreeAndKeep_next _ m)
  | ldi a b => exact formatRI_related rfl (raised _) fun _ => agreeAndKeep_next _ m
  | prn a => exact formatR_related rfl (raised _) fun _ => agreeAndKeep_next _ m
  | mul a b => exact formatRR_related rfl (raised _) fun _ _ => agreeAndKeep_next _ m
  | add a b => exact formatRR_related rfl (raised _) fun _ _ => agreeAndKeep_next _ m
  | push a | call a => simp [Instr.mnemonic] at noStore
  | pop a =>
    refine formatR_related rfl (raised _) fun i => ?_
    simp only [State.withMem_sp, State.withMem_load, sameRead (by simp [Instr.mnemonic])]
    cases stepUp (if i = Config.spIndex then s.load s.sp else s.sp) with
    | none => exact raised _
    | some sp => exact agreeAndKeep_next _ m
  | ret =>
    refine formatZ_related rfl (raised _) ?_
    simp only [State.withMem_sp, State.withMem_load, sameRead (by simp [Instr.mnemonic])]
    cases stepUp s.sp with
    | none => exact raised _
    | some sp => exact agreeAndKeep_next _ m
  | cmp a b => exact formatRR_related rfl (raised _) fun _ _ => agreeAndKeep_next _ m
  | jmp a => exact formatR_related rfl (raised _) fun _ => agreeAndKeep_next _ m
  | jeq a | jne a => exact formatR_related rfl (raised _) fun _ => agreeAndKeep_branch (flagE s.fl) _ _ m

/-! ### PUSH and CALL store one byte at the new SP -/

/-- Both results raise one fault, from `s` and from `s` with memory `m`; or both are next states that differ in memory
alone, and each memory is its old one with the same byte stored at the new SP, one below the old. -/
def AgreeAndStore (s : State) (m : Memory) (r r' : Result) : Prop :=
  (∃ k, r = raise k s ∧ r' = raise k (s.withMem m)) ∨
  (∃ t : State, r = .next t ∧ r' = .next (t.withMem (m.put t.sp.toNat (t.load t.sp))) ∧
    t.mem = s.mem.put t.sp.toNat (t.load t.sp) ∧ t.sp.toNat + 1 = s.sp.toNat ∧ t.fault = s.fault)

theorem agreeAndStore_raise (k : Fault) (s : State) (m : Memory) :
    AgreeAndStore s m (raise k s) (raise k (s.withMem m)) :=
  .inl ⟨k, rfl, rfl⟩

/-- A store at SP, from a state that differs from `s` in neither memory nor the fault latch. -/
theorem agreeAndStore_store {s u : State} {m : Memory} {sp : Byte} (v : Byte) (newSp : u.sp = sp)
    (down : sp.toNat + 1 = s.sp.toNat) (sameMem : u.mem = s.mem) (sameFault : u.fault = s.fault) :
    AgreeAndStore s m (.next (u.store sp v)) (.next ((u.withMem m).store sp v)) := by
  subst newSp
  have stored : (u.store u.sp v).load (u.store u.sp v).sp = v := Memory.cell_put_same u.mem u.sp.toNat v
  refine .inr ⟨u.store u.sp v, rfl, ?_, ?_, down, sameFault⟩
  · rw [stored]; rfl
  · rw [stored, State.store_mem, State.store_sp, sameMem]

/-- Executing PUSH or CALL reads nothing of memory. -/
theorem exec_agreeAndStore {i : Instr} (s : State) (m : Memory) (stack : i.mnemonic ∈ [.push, .call]) :
    AgreeAndStore s m (exec i s) (exec i (s.withMem m)) := by
  have raised (k : Fault) := agreeAndStore_raise k s m
  cases i with
  | push a =>
    refine formatR_related rfl (raised _) fun i => ?_
    rw [State.withMem_sp]
    cases down : stepDown s.sp with
    | none => exact raised _
    | some sp =>
      exact agreeAndStore_store (u := (s.setSp sp).advance 2) ((s.setSp sp).reg i) (State.sp_setSp s sp)
        (stepDown_eq_some.mp down) rfl rfl
  | call a =>
    refine formatR_related rfl (raised _) fun i => ?_
    rw [State.withMem_sp]
    cases down : stepDown s.sp with
    | none => exact raised _
    | some sp =>
      change AgreeAndStore s m (if _ then _ else _) (if s.pc.toNat + 2 > 255 then _ else _)
      split
      · exact raised _
      · exact agreeAndStore_store (u := (s.setSp sp).jumpTo ((s.setSp sp).reg i)) (BitVec.ofNat 8 (s.pc.toNat + 2))
          (State.sp_setSp s sp) (stepDown_eq_some.mp down) rfl rfl
  | hlt | ldi | prn | mul | add | pop | ret | cmp | jmp | jeq | jne => simp [Instr.mnemonic] at stack

/-- A PUSH or CALL that completes stores one byte at the new SP, the same one from every memory. -/
theorem exec_store_of_completes {i : Instr} {s t : State} (m : Memory) (h : exec i s = .next t)
    (stack : i.mnemonic ∈ [.push, .call]) (completes : t.fault = none) :
    t.mem = s.mem.put t.sp.toNat (t.load t.sp) ∧ t.sp.toNat + 1 = s.sp.toNat ∧
      exec i (s.withMem m) = .next (t.withMem (m.put t.sp.toNat (t.load t.sp))) := by
  rcases exec_agreeAndStore s m stack with ⟨k, ht, -⟩ | ⟨t', ht, hm, stored, down, -⟩
  · cases h.symm.trans ht; cases completes
  · cases h.symm.trans ht; exact ⟨stored, down, hm⟩

/-- A PUSH or CALL that raises a fault raises it from every memory and leaves that memory alone. -/
theorem exec_keep_of_raises {i : Instr} {s t : State} (m : Memory) (h : exec i s = .next t)
    (stack : i.mnemonic ∈ [.push, .call]) (noFault : s.fault = none) (raises : t.fault ≠ none) :
    exec i (s.withMem m) = .next (t.withMem m) := by
  rcases exec_agreeAndStore s m stack with ⟨k, ht, hm⟩ | ⟨t', ht, -, -, -, sameFault⟩
  · cases h.symm.trans ht; exact hm
  · cases h.symm.trans ht; exact absurd (sameFault.trans noFault) raises

/-- Every other instruction comes out the same from every memory that agrees on the cell at SP, which POP and RET alone
read, and leaves that memory alone. -/
theorem exec_keep_of_noStore {i : Instr} {s t : State} {m : Memory} (h : exec i s = .next t)
    (noStore : i.mnemonic ∉ [.push, .call])
    (sameRead : i.mnemonic ∈ [.pop, .ret] → m.read s.sp.toNat = s.mem.read s.sp.toNat) :
    exec i (s.withMem m) = .next (t.withMem m) := by
  obtain ⟨t', ht, hm⟩ := exec_agreeAndKeep noStore fun popOrRet => Memory.cell_eq_of_read_eq (sameRead popOrRet)
  cases h.symm.trans ht
  exact hm

/-- Settles O44: fetch by `fetchDecode_withMem`, PUSH and CALL by `exec_store_of_completes` and `exec_keep_of_raises`,
the others by `exec_keep_of_noStore`. -/
theorem onlyFetchAndStackReachMemory : Obligations.OnlyFetchAndStackReachMemory := by
  refine ⟨fun c d s m => fetchDecode_withMem c d, fun i s t h stack _ completes => ?_,
    fun i m s t => exec_keep_of_raises m, fun i m s t h popOrRet same => ?_, fun i m s t h other => ?_⟩
  · obtain ⟨stored, down, -⟩ := exec_store_of_completes s.mem h stack completes
    refine ⟨down, fun a ha => ?_, t.load t.sp, Memory.read_of_lt t.mem t.sp.isLt, fun m => ?_⟩
    · simp only [Memory.read, stored, Memory.cell_put_other s.mem _ ha]
    · obtain ⟨-, -, fromM⟩ := exec_store_of_completes m h stack completes
      exact ⟨m.put t.sp.toNat (t.load t.sp), if_pos t.sp.isLt, fromM⟩
  · refine exec_keep_of_noStore h ?_ fun _ => same
    rcases List.mem_pair.mp popOrRet with e | e <;> rw [e] <;> decide
  · have split : i.mnemonic ∉ [Mnemonic.push, .call] ++ [.pop, .ret] := other
    obtain ⟨noStore, noLoad⟩ := not_or.mp (mt List.mem_append.mpr split)
    exact exec_keep_of_noStore h noStore fun loads => absurd loads noLoad

end Sys2Proof.Machine
end

section
/-! The decoder (spec/30_encoding.md R85, R86): the opcode byte selects the mnemonic, the operand bytes only fill it
in. -/

namespace Sys2Proof.Machine

/-- The operand bytes do not change the mnemonic. -/
@[simp] theorem mnemonic_instrOf (m : Mnemonic) (a b : Byte) : (instrOf m a b).mnemonic = m := by
  cases m <;> rfl

/-- The decoder's answers: the instruction of the mnemonic whose opcode the byte is, with the operand bytes. -/
theorem decode_eq_ok {c : OpcodeMap} {o a b : Byte} {i : Instr} :
    decode c o a b = .ok i ↔ ∃ m, c.byte m = o ∧ instrOf m a b = i := by
  simp only [← mnemonicOf_eq_some, decode]
  cases mnemonicOf c o with
  | none => simp
  | some m => simp

/-- Settles O7: by `decode_eq_ok` the instruction is `instrOf` of the mnemonic at that byte, and has that mnemonic. -/
theorem decodeComparesTheWholeOpcodeByte : Obligations.DecodeComparesTheWholeOpcodeByte := by
  intro c o a b m
  constructor
  · rintro ⟨i, decoded, rfl⟩
    obtain ⟨n, atByte, rfl⟩ := decode_eq_ok.mp decoded
    rwa [mnemonic_instrOf]
  · intro atByte
    exact ⟨instrOf m a b, decode_eq_ok.mpr ⟨m, atByte, rfl⟩, mnemonic_instrOf m a b⟩

end Sys2Proof.Machine
end

section
/-! The step cycle (spec/40_step_cycle.md R111, R117): what a step from a state that is not terminal ends in. -/

namespace Sys2Proof.Machine

/-! ### What the latches report -/

theorem outcome_of_fault {s : State} {k : Fault} (fault : s.fault = some k) : s.outcome = .faulted k := by
  rw [State.outcome, fault]

theorem outcome_of_halted {s : State} (noFault : s.fault = none) (halted : s.halted = true) : s.outcome = .halted := by
  rw [State.outcome, noFault, halted]; rfl

theorem outcome_of_running {s : State} (noFault : s.fault = none) (running : s.halted = false) :
    s.outcome = .continued := by
  rw [State.outcome, noFault, running]; rfl

/-! ### What an instruction does to the latches -/

/-- No meaning refuses or stops: even a raise is a next state (spec/60_exceptions.md R185). -/
theorem exec_has_next (i : Instr) (s : State) : ∃ t, exec i s = .next t := by
  obtain ⟨t, -, -, executed, -, -⟩ := exec_agreeUpToFl i s s.fl
  exact ⟨t, executed⟩

/-- An instruction that completes leaves the fault latch alone. -/
theorem Effect.fault_eq {i : Instr} {s t : State} (effect : Effect i s t) : t.fault = s.fault := by
  cases effect with
  | jeq | jne => split <;> rfl
  | hlt | ldi | prn | mul | add | push | pop | call | ret | cmp | jmp => rfl

/-- HLT sets the halted latch. -/
theorem Effect.halted_of_hlt {s t : State} (effect : Effect .hlt s t) : t.halted = true := by
  cases effect; rfl

/-- HLT is the only writer of the halted latch. -/
theorem Effect.halted_of_ne_hlt {i : Instr} {s t : State} (effect : Effect i s t) (notHlt : i ≠ .hlt) :
    t.halted = s.halted := by
  cases effect with
  | hlt => exact absurd rfl notHlt
  | jeq | jne => split <;> rfl
  | ldi | prn | mul | add | push | pop | call | ret | cmp | jmp => rfl

/-- Executing an instruction raises a fault or has the instruction's effect. -/
theorem exec_raises_or_effect {i : Instr} {s t : State} (h : exec i s = .next t) :
    (∃ k, t = s.withFault k) ∨ Effect i s t := by
  rcases exec_cases h with raised | raised | effect
  · exact .inl ⟨_, raised⟩
  · exact .inl ⟨_, raised⟩
  · exact .inr effect

/-! ### The obligations -/

/-- Settles O11: above 255 `fetchDecode_cases` leaves only the fetch's fault, which `stepWith_of_running` raises. -/
theorem fetchAbove255RaisesOutOfBounds : Obligations.FetchAbove255RaisesOutOfBounds := by
  intro c d s running above
  have fetch : s.fetchDecode c d = .error .outOfBounds := by
    rcases fetchDecode_cases s c d with ⟨-, e⟩ | ⟨inMemory, -⟩ | ⟨_, inMemory, -⟩
    · exact e
    · omega
    · omega
  rcases stepWith_of_running c d running with ⟨k, hk, stepped⟩ | ⟨i, hi, -⟩
  · cases hk.symm.trans fetch; exact stepped
  · cases hi.symm.trans fetch

/-- Settles O19: fetch or decode raises, or the decoded instruction raises or has its effect, which leaves the fault
latch clear and sets the halted latch exactly for HLT. -/
theorem stepEndsInOneOfThreeWays : Obligations.StepEndsInOneOfThreeWays := by
  intro c d s running
  obtain ⟨notHalted, noFault⟩ := terminal_eq_false.mp running
  rcases stepWith_of_running c d running with ⟨k, -, stepped⟩ | ⟨i, decoded, stepped⟩
  · exact ⟨s.withFault k, stepped, .inr (.inr ⟨k, outcome_of_fault rfl, rfl, rfl⟩)⟩
  · obtain ⟨t, executed⟩ := exec_has_next i s
    refine ⟨t, stepped.trans executed, ?_⟩
    rcases exec_raises_or_effect executed with ⟨k, rfl⟩ | effect
    · exact .inr (.inr ⟨k, outcome_of_fault rfl, rfl, rfl⟩)
    · have fault : t.fault = none := effect.fault_eq.trans noFault
      by_cases isHlt : i = .hlt
      · subst isHlt
        have halted := effect.halted_of_hlt
        exact .inr (.inl ⟨outcome_of_halted fault halted, halted, fault, decoded, executed⟩)
      · have goesOn : t.halted = false := (effect.halted_of_ne_hlt isHlt).trans notHalted
        exact .inl ⟨outcome_of_running fault goesOn, goesOn, fault, i, decoded, isHlt, executed⟩

end Sys2Proof.Machine
end

section
/-! LDI (spec/41_move_halt_output.md R131): the two answers of its format, each from its own condition. -/

namespace Sys2Proof.Machine

/-- Format RI raises when an operand byte lies outside memory or the register operand names no register. -/
theorem formatRI_raises {a : Byte} {s : State} {rest : Fin 8 → Result} (h : 253 < s.pc.toNat ∨ 7 < a.toNat) :
    formatRI a s rest = raise .outOfBounds s := by
  rcases formatRI_cases a s rest with ⟨-, raised⟩ | ⟨i, fits, ha, -⟩
  · exact raised
  · omega

/-- Format RI reaches the execute block when the whole instruction lies in memory and the operand names a register. -/
theorem formatRI_executes {a : Byte} {i : Fin 8} {s : State} {rest : Fin 8 → Result} (fits : s.pc.toNat ≤ 253)
    (ha : a.toNat = i.val) : formatRI a s rest = rest i := by
  rcases formatRI_cases a s rest with ⟨short, -⟩ | ⟨j, -, hj, executed⟩
  · omega
  · rwa [Fin.ext (ha.symm.trans hj)]

/-- Settles O24: format RI raises, or reaches the write of the register named and the advance by 3. -/
theorem ldiLoadsTheImmediate : Obligations.LdiLoadsTheImmediate := by
  refine ⟨fun _ _ _ => rfl, fun _ _ _ => formatRI_raises, fun a b i s fits ha => ?_⟩
  have advanced : ((s.setReg i b).advance 3).pc.toNat = s.pc.toNat + 3 :=
    advance_pc_toNat (by rw [State.setReg_pc]; omega)
  have others : SameRegsExcept [i] s (s.setReg i b) := fun r notWritten =>
    State.reg_setReg_other s b (List.ne_of_not_mem_cons notWritten)
  exact ⟨(s.setReg i b).advance 3, formatRI_executes fits ha, State.reg_setReg_same s i b, advanced, others, rfl,
    fun _ => rfl, ⟨rfl, rfl⟩, rfl⟩

end Sys2Proof.Machine
end

section
/-! MUL and ADD (spec/42_alu.md R140, R141, R142): the two answers of their format, and the one write they share, with
the ALU's operation left open. -/

namespace Sys2Proof.Machine

/-- Format RR raises when an operand byte lies outside memory or a register operand names no register. -/
theorem formatRR_raises {a b : Byte} {s : State} {rest : Fin 8 → Fin 8 → Result}
    (h : 253 < s.pc.toNat ∨ 7 < a.toNat ∨ 7 < b.toNat) : formatRR a b s rest = raise .outOfBounds s := by
  rcases formatRR_cases a b s rest with ⟨-, raised⟩ | ⟨i, j, fits, ha, hb, -⟩
  · exact raised
  · omega

/-- Format RR reaches the execute block when the whole instruction lies in memory and both operands name registers. -/
theorem formatRR_executes {a b : Byte} {i j : Fin 8} {s : State} {rest : Fin 8 → Fin 8 → Result}
    (fits : s.pc.toNat ≤ 253) (ha : a.toNat = i.val) (hb : b.toNat = j.val) : formatRR a b s rest = rest i j := by
  rcases formatRR_cases a b s rest with ⟨short, -⟩ | ⟨i', j', -, hi, hj, executed⟩
  · omega
  · rwa [Fin.ext (ha.symm.trans hi), Fin.ext (hb.symm.trans hj)]

/-- Writing one register keeps the others. -/
theorem sameRegsExcept_setReg (s : State) (i : Fin 8) (v : Byte) : SameRegsExcept [i] s (s.setReg i v) :=
  fun _ notWritten => State.reg_setReg_other s v (List.ne_of_not_mem_cons notWritten)

/-- A register operation `f` of format RR puts `f` of the two old values in the first register and advances by 3; both
are read before the write, so `i = j` needs no case of its own. -/
theorem formatRR_writes (f : Byte → Byte → Byte) {a b : Byte} {i j : Fin 8} {s : State}
    (fits : s.pc.toNat ≤ 253) (ha : a.toNat = i.val) (hb : b.toNat = j.val) :
    ∃ t, formatRR a b s (fun i j => .next ((s.setReg i (f (s.reg i) (s.reg j))).advance 3)) = .next t ∧
      t.reg i = f (s.reg i) (s.reg j) ∧ t.pc.toNat = s.pc.toNat + 3 ∧
      SameRegsExcept [i] s t ∧ t.fl = s.fl ∧ SameMemory s t ∧ SameLatches s t ∧ t.out = s.out := by
  have advanced (v : Byte) : ((s.setReg i v).advance 3).pc.toNat = s.pc.toNat + 3 :=
    advance_pc_toNat (by rw [State.setReg_pc]; omega)
  exact ⟨_, formatRR_executes fits ha hb, State.reg_setReg_same s i _, advanced _, sameRegsExcept_setReg s i _, rfl,
    fun _ => rfl, ⟨rfl, rfl⟩, rfl⟩

/-- Settles O26: format RR raises, or writes the ALU's product, which is the product mod 256. -/
theorem mulStoresTheProductMod256 : Obligations.MulStoresTheProductMod256 := by
  refine ⟨fun _ _ _ => rfl, fun _ _ _ => formatRR_raises, fun a b i j s fits ha hb => ?_⟩
  obtain ⟨t, executed, product, frame⟩ := formatRR_writes aluMul fits ha hb
  exact ⟨t, executed, by rw [product, aluMul_toNat], frame⟩

/-- Settles O27: format RR raises, or writes the ALU's sum, which is the sum mod 256. -/
theorem addStoresTheSumMod256 : Obligations.AddStoresTheSumMod256 := by
  refine ⟨fun _ _ _ => rfl, fun _ _ _ => formatRR_raises, fun a b i j s fits ha hb => ?_⟩
  obtain ⟨t, executed, sum, frame⟩ := formatRR_writes aluAdd fits ha hb
  exact ⟨t, executed, by rw [sum, aluAdd_toNat], frame⟩

end Sys2Proof.Machine
end

section
/-! RET and JMP (spec/44_control_flow.md R161, R162): the two answers of each of their formats, and RET's pop. -/

namespace Sys2Proof.Machine

/-- Format Z raises when the opcode byte lies outside memory. -/
theorem formatZ_raises {s : State} {rest : Result} (short : 255 < s.pc.toNat) :
    formatZ s rest = raise .outOfBounds s := by
  rcases formatZ_cases s rest with ⟨-, raised⟩ | ⟨fits, -⟩
  · exact raised
  · omega

/-- Format Z reaches the execute block when the opcode byte lies in memory. -/
theorem formatZ_executes {s : State} {rest : Result} (fits : s.pc.toNat ≤ 255) : formatZ s rest = rest := by
  rcases formatZ_cases s rest with ⟨short, -⟩ | ⟨-, executed⟩
  · omega
  · exact executed

/-- Format R raises when the operand byte lies outside memory or names no register. -/
theorem formatR_raises {a : Byte} {s : State} {rest : Fin 8 → Result} (h : 254 < s.pc.toNat ∨ 7 < a.toNat) :
    formatR a s rest = raise .outOfBounds s := by
  rcases formatR_cases a s rest with ⟨-, raised⟩ | ⟨i, fits, ha, -⟩
  · exact raised
  · omega

/-- Format R reaches the execute block when the whole instruction lies in memory and the operand names a register. -/
theorem formatR_executes {a : Byte} {i : Fin 8} {s : State} {rest : Fin 8 → Result} (fits : s.pc.toNat ≤ 254)
    (ha : a.toNat = i.val) : formatR a s rest = rest i := by
  rcases formatR_cases a s rest with ⟨short, -⟩ | ⟨j, -, hj, executed⟩
  · omega
  · rwa [Fin.ext (ha.symm.trans hj)]

/-- The byte a load returns is the byte the memory reads at that address. -/
theorem State.load_of_read {s : State} {a v : Byte} (h : s.mem.read a.toNat = some v) : s.load a = v :=
  Option.some.inj ((Memory.read_of_lt s.mem a.isLt).symm.trans h)

/-- SP can go up from every byte but 255. -/
theorem stepUp_isSome_of_ne {v : Byte} (h : v.toNat ≠ 255) : ∃ w, stepUp v = some w :=
  Option.ne_none_iff_exists'.mp (mt stepUp_eq_none.mp h)

/-- RET raises StackFault when SP is 255. -/
theorem execRet_stackFault {s : State} (fits : s.pc.toNat ≤ 255) (top : s.sp.toNat = 255) :
    execRet s = raise .stackFault s := by
  rw [execRet, formatZ_executes fits, stepUp_eq_none.mpr top]

/-- Below 255, RET moves SP up and jumps to the byte at the old SP. -/
theorem execRet_pops {s : State} {sp : Byte} (fits : s.pc.toNat ≤ 255) (up : stepUp s.sp = some sp) :
    execRet s = .next ((s.setSp sp).jumpTo (s.load s.sp)) := by
  rw [execRet, formatZ_executes fits, up]

/-- Settles O32: RET raises at format Z or at the stack-pointer block, or writes SP and pc alone; the byte popped is the
one memory reads at the old SP, and SP goes up without wrap. -/
theorem retJumpsToThePoppedByte : Obligations.RetJumpsToThePoppedByte := by
  refine ⟨fun _ => rfl, fun _ => formatZ_raises, fun _ => execRet_stackFault, fun v s fits notTop popped => ?_⟩
  obtain ⟨sp, up⟩ := stepUp_isSome_of_ne notTop
  have jumped : ((s.setSp sp).jumpTo (s.load s.sp)).pc.toNat = v.toNat := by
    rw [State.jumpTo_pc, zext9_toNat, State.load_of_read popped]
  have spUp : ((s.setSp sp).jumpTo (s.load s.sp)).sp.toNat = s.sp.toNat + 1 := by
    rw [State.jumpTo_sp, State.sp_setSp, stepUp_eq_some.mp up]
  exact ⟨_, execRet_pops fits up, jumped, spUp, sameRegsExcept_setReg s Config.spIndex sp, fun _ => rfl, rfl,
    ⟨rfl, rfl⟩, rfl⟩

/-- Settles O33: format R raises, or reaches the jump to the register named, which writes pc alone. -/
theorem jmpReplacesPc : Obligations.JmpReplacesPc :=
  ⟨fun _ _ => rfl, fun _ _ => formatR_raises, fun _ i s fits ha =>
    ⟨s.jumpTo (s.reg i), formatR_executes fits ha, zext9_toNat (s.reg i), rfl⟩⟩

end Sys2Proof.Machine
end

section
/-! InvalidOpcode (spec/60_exceptions.md R181): raised by the decoder, on the opcode byte alone, and by no
instruction. -/

namespace Sys2Proof.Machine

/-- The opcode map finds nothing exactly at a byte that is no mnemonic's. -/
theorem mnemonicOf_eq_none {c : OpcodeMap} {opcode : Byte} :
    mnemonicOf c opcode = none ↔ ∀ m, opcode ≠ c.byte m :=
  Option.eq_none_iff_forall_ne_some.trans <|
    forall_congr' fun m => not_congr ((mnemonicOf_eq_some c opcode m).trans eq_comm)

/-- Fetch and decode answer InvalidOpcode exactly for a byte in memory that is no mnemonic's. -/
theorem fetchDecode_eq_invalidOpcode {s : State} {c : OpcodeMap} {d : Nat → Byte} :
    s.fetchDecode c d = .error .invalidOpcode ↔
      s.pc.toNat ≤ 255 ∧ ∀ m : Mnemonic, s.mem.read s.pc.toNat ≠ some (c.byte m) := by
  have unknown (inMemory : s.pc.toNat ≤ 255) : mnemonicOf c (s.mem.cell s.pc.toNat) = none ↔
      ∀ m : Mnemonic, s.mem.read s.pc.toNat ≠ some (c.byte m) := by
    simp only [mnemonicOf_eq_none, Memory.read_of_lt s.mem (Nat.lt_succ_of_le inMemory), ne_eq, Option.some.injEq]
  rcases fetchDecode_cases s c d with ⟨above, e⟩ | ⟨inMemory, notFound, e⟩ | ⟨m, inMemory, found, e⟩
  · simp [e, Nat.not_le.mpr above]
  · simp [e, inMemory, (unknown inMemory).mp notFound]
  · rw [← and_congr_right unknown, e, found]
    simp

/-- Two raises from one state end alike only for the same kind. -/
@[simp] theorem State.withFault_inj {s : State} {k k' : Fault} : s.withFault k = s.withFault k' ↔ k = k' :=
  ⟨fun same => Option.some.inj (congrArg State.fault same), congrArg s.withFault⟩

/-- From a clear fault latch, no instruction sets it to InvalidOpcode. -/
theorem exec_fault_ne_invalidOpcode {i : Instr} {s t : State} (noFault : s.fault = none) (h : exec i s = .next t) :
    t.fault ≠ some .invalidOpcode := by
  rcases exec_cases h with rfl | rfl | effect
  · simp
  · simp
  · simp [effect.fault_eq, noFault]

/-- From a state that is not terminal, a step raises InvalidOpcode exactly when its fetch and decode do. -/
theorem stepWith_raises_invalidOpcode_iff {s : State} (c : OpcodeMap) (d : Nat → Byte) (running : s.terminal = false) :
    stepWith c d s = .next (s.withFault .invalidOpcode) ↔ s.fetchDecode c d = .error .invalidOpcode := by
  rcases stepWith_of_running c d running with ⟨k, refused, stepped⟩ | ⟨i, decoded, stepped⟩
  · rw [stepped, refused]
    simp
  · obtain ⟨-, noFault⟩ := terminal_eq_false.mp running
    rw [stepped, decoded]
    exact ⟨fun executed => absurd rfl (exec_fault_ne_invalidOpcode noFault executed), nofun⟩

/-- Settles O12: only fetch and decode raise InvalidOpcode, and they do exactly for a byte in memory that is no
mnemonic's. -/
theorem invalidOpcodeExactlyForUnknownBytes : Obligations.InvalidOpcodeExactlyForUnknownBytes :=
  fun c d _ running => (stepWith_raises_invalidOpcode_iff c d running).trans fetchDecode_eq_invalidOpcode

end Sys2Proof.Machine
end

section
/-! The ends of a run (spec/70_reset_and_hazards.md R234): success is the end HLT gives, failure a set fault latch. -/

namespace Sys2Proof.Machine

/-! ### The latches of an end -/

theorem succeeded_eq_true {s : State} : s.succeeded = true ↔ s.halted = true ∧ s.fault = none := by
  simp [State.succeeded]

/-- A terminal state is no success exactly when it holds a fault, halted or not. -/
theorem terminal_not_succeeded_iff {s : State} :
    s.terminal = true ∧ s.succeeded = false ↔ ∃ k, s.fault = some k := by
  unfold State.terminal State.succeeded
  cases s.fault with
  | none => simp
  | some k => simp

/-! ### The step that halts -/

/-- Only the mnemonic HLT has HLT as its instruction. -/
@[simp] theorem instrOf_eq_hlt {m : Mnemonic} {a b : Byte} : instrOf m a b = .hlt ↔ m = .hlt := by
  constructor
  · intro isHlt
    rw [← mnemonic_instrOf m a b, isHlt]
    rfl
  · rintro rfl
    rfl

/-- Fetch and decode answer HLT exactly for its opcode byte at an address in memory. -/
theorem fetchDecode_eq_hlt {s : State} {c : OpcodeMap} {d : Nat → Byte} :
    s.fetchDecode c d = .ok .hlt ↔ s.pc.toNat ≤ 255 ∧ s.mem.read s.pc.toNat = some (c.byte .hlt) := by
  have hltByte (inMemory : s.pc.toNat ≤ 255) : mnemonicOf c (s.mem.cell s.pc.toNat) = some .hlt ↔
      s.mem.read s.pc.toNat = some (c.byte .hlt) := by
    rw [mnemonicOf_eq_some, Memory.read_of_lt s.mem (Nat.lt_succ_of_le inMemory), Option.some.injEq, eq_comm]
  rw [← and_congr_right hltByte]
  rcases fetchDecode_cases s c d with ⟨above, e⟩ | ⟨-, notFound, e⟩ | ⟨m, inMemory, found, e⟩
  · simp [e, Nat.not_le.mpr above]
  · simp [e, notFound]
  · simp [e, inMemory, found]

/-- A step that fetches HLT halts: the one byte of HLT lies in memory, so nothing raises. -/
theorem stepWith_of_hlt_fetched {c : OpcodeMap} {d : Nat → Byte} {s : State} (running : s.terminal = false)
    (fetched : s.fetchDecode c d = .ok .hlt) : stepWith c d s = .next (s.setHalted.advance 1) := by
  obtain ⟨inMemory, -⟩ := fetchDecode_eq_hlt.mp fetched
  rcases stepWith_of_running c d running with ⟨k, refused, -⟩ | ⟨i, decoded, stepped⟩
  · cases refused.symm.trans fetched
  · cases decoded.symm.trans fetched
    exact stepped.trans (formatZ_executes inMemory)

/-- From a state that is not terminal, a step ends in success exactly when it fetched an HLT: of the three ends of a
step, only HLT's sets the halted latch with no fault. -/
theorem stepWith_succeeds_iff_hlt_fetched {c : OpcodeMap} {d : Nat → Byte} {s t : State} (running : s.terminal = false)
    (stepped : stepWith c d s = .next t) : t.succeeded = true ↔ s.fetchDecode c d = .ok .hlt := by
  rw [succeeded_eq_true]
  constructor
  · rintro ⟨halted, noFault⟩
    obtain ⟨u, stepped', ends⟩ := stepEndsInOneOfThreeWays c d s running
    cases stepped.symm.trans stepped'
    rcases ends with ⟨-, goesOn, -⟩ | ⟨-, -, -, fetched, -⟩ | ⟨k, -, fault, -⟩
    · cases halted.symm.trans goesOn
    · exact fetched
    · cases noFault.symm.trans fault
  · intro fetched
    cases stepped.symm.trans (stepWith_of_hlt_fetched running fetched)
    obtain ⟨-, noFault⟩ := terminal_eq_false.mp running
    exact ⟨rfl, noFault⟩

/-- Settles O22: a step ends in success exactly when it fetched an HLT, and that is exactly the HLT byte at a pc in
memory; the other two parts are what the latches of its end say. -/
theorem runEndsSuccessfullyExactlyByHlt : Obligations.RunEndsSuccessfullyExactlyByHlt :=
  fun _ _ _ _ running stepped =>
    ⟨succeeded_eq_true, (stepWith_succeeds_iff_hlt_fetched running stepped).trans fetchDecode_eq_hlt,
      terminal_not_succeeded_iff⟩

end Sys2Proof.Machine
end

section
/-! What a completed instruction does to pc (spec/10_state.md R28, R29, spec/40_step_cycle.md R113). -/

namespace Sys2Proof.Machine

/-- pc ends at most at 256, LEN further on or, after a control transfer, at a byte (R113). -/
def PcMoves (i : Instr) (s t : State) : Prop :=
  t.pc.toNat ≤ 256 ∧
    (t.pc.toNat = s.pc.toNat + i.mnemonic.length ∨
      ∃ v : Byte, t.pc.toNat = v.toNat ∧ (i = .ret ∨ ∃ a, i = .call a ∨ i = .jmp a ∨ i = .jeq a ∨ i = .jne a))

theorem length_le_three (m : Mnemonic) : m.length ≤ 3 := by
  cases m <;> decide

/-- An instruction that lies in memory ends at most at 256, where the incrementer does not wrap. -/
theorem pcMoves_advance {i : Instr} {s u : State} (fits : s.pc.toNat ≤ 256 - i.mnemonic.length) (samePc : u.pc = s.pc) :
    PcMoves i s (u.advance i.mnemonic.length) := by
  have short := length_le_three i.mnemonic
  have advanced : (u.advance i.mnemonic.length).pc.toNat = s.pc.toNat + i.mnemonic.length := by
    rw [advance_pc_toNat (by rw [samePc]; omega), samePc]
  exact ⟨by omega, .inl advanced⟩

theorem pcMoves_jumpTo {i : Instr} {s u : State} (v : Byte)
    (transfers : i = .ret ∨ ∃ a, i = .call a ∨ i = .jmp a ∨ i = .jeq a ∨ i = .jne a) : PcMoves i s (u.jumpTo v) := by
  have target : (u.jumpTo v).pc.toNat = v.toNat := zext9_toNat v
  exact ⟨by have := v.isLt; omega, .inr ⟨v, target, transfers⟩⟩

theorem Effect.pcMoves {i : Instr} {s t : State} (effect : Effect i s t) : PcMoves i s t := by
  cases effect with
  | hlt fits | ldi fits | prn fits | mul fits | add fits | push fits | pop fits | cmp fits =>
    exact pcMoves_advance fits rfl
  | ret | call | jmp => exact pcMoves_jumpTo _ (by simp)
  | jeq fits =>
    split
    · exact pcMoves_jumpTo _ (by simp)
    · exact pcMoves_advance (i := .jeq _) fits rfl
  | jne fits =>
    split
    · exact pcMoves_advance (i := .jne _) fits rfl
    · exact pcMoves_jumpTo _ (by simp)

/-- An instruction after which the fault latch is clear completed. -/
theorem effect_of_completes {i : Instr} {s t : State} (h : exec i s = .next t) (completes : t.fault = none) :
    Effect i s t := by
  rcases exec_raises_or_effect h with ⟨k, rfl⟩ | effect
  · cases completes
  · exact effect

/-- Settles O20: an instruction without a fault has its effect, and every effect moves pc as `PcMoves` says. -/
theorem pcAdvancesExactlyOrIsReplaced : Obligations.PcAdvancesExactlyOrIsReplaced :=
  fun _ _ _ _ executed completes => (effect_of_completes executed completes).pcMoves

end Sys2Proof.Machine
end

section
/-! The host's transactions (spec/70_reset_and_hazards.md section 3), one equation for each answer of `Session.act`, and
from these all that a transaction can do to the machine. -/

namespace Sys2Proof.Machine

section
variable {x : Session} (c : OpcodeMap) (d : Nat → Byte)

theorem act_load_fits {bytes : List Byte} (first : x.phase = .justReset) (fits : bytes.length ≤ 256) :
    x.act c d (.load bytes) =
      (⟨.launched, x.machine.withMem (x.machine.mem.placeBytes Config.loadBase bytes)⟩, .done) := by
  simp only [Session.act, first, State.loadBytes, if_pos fits, State.withMem]

theorem act_load_too_long {bytes : List Byte} (first : x.phase = .justReset) (long : 256 < bytes.length) :
    x.act c d (.load bytes) = (x, .outOfBounds) := by
  simp only [Session.act, first, State.loadBytes, if_neg (Nat.not_le.mpr long)]

theorem act_load_late (bytes : List Byte) (late : x.phase ≠ .justReset) :
    x.act c d (.load bytes) = (x, .outOfOrder) := by
  cases phase : x.phase with
  | justReset => exact absurd phase late
  | written | launched | stepped | ran => simp only [Session.act, phase]

theorem act_step_performed (notRan : x.phase ≠ .ran) :
    x.act c d .step =
      (⟨.stepped, (x.machine.stepTransaction c d).1⟩, .reported (x.machine.stepTransaction c d).2) := by
  cases phase : x.phase with
  | ran => exact absurd phase notRan
  | justReset | written | launched | stepped => simp only [Session.act, phase]

theorem act_step_after_run (ran : x.phase = .ran) :
    x.act c d .step = (x, if x.machine.terminal then .reported x.machine.outcome else .outOfOrder) := by
  simp only [Session.act, ran]

theorem act_run_performed (n : Nat) (first : x.phase ∉ [.stepped, .ran]) :
    x.act c d (.run n) =
      (⟨.ran, (x.machine.runTransaction c d n).1⟩, runReply (x.machine.runTransaction c d n).2) := by
  cases phase : x.phase with
  | stepped | ran => simp [phase] at first
  | justReset | written | launched => simp only [Session.act, phase]

theorem act_run_refused (n : Nat) (late : x.phase ∈ [.stepped, .ran]) : x.act c d (.run n) = (x, .outOfOrder) := by
  cases phase : x.phase with
  | stepped | ran => simp only [Session.act, phase]
  | justReset | written | launched => simp [phase] at late

theorem act_write_outside {a : Nat} (v : Byte) (outside : 255 < a) :
    x.act c d (.writeCell a v) = (x, .outOfBounds) := by
  simp only [Session.act, Memory.write, if_neg (Nat.not_lt.mpr outside)]

theorem act_write_early {a : Nat} (v : Byte) (inside : a ≤ 255) (early : x.phase ∈ [.justReset, .written]) :
    x.act c d (.writeCell a v) = (⟨.written, x.machine.withMem (x.machine.mem.put a v)⟩, .done) := by
  cases phase : x.phase with
  | justReset | written => simp only [Session.act, Memory.write, if_pos (Nat.lt_succ_of_le inside), phase, State.withMem]
  | launched | stepped | ran => simp [phase] at early

theorem act_write_late {a : Nat} (v : Byte) (inside : a ≤ 255) (late : x.phase ∈ [.launched, .stepped, .ran]) :
    x.act c d (.writeCell a v) = (x, .outOfOrder) := by
  cases phase : x.phase with
  | justReset | written => simp [phase] at late
  | launched | stepped | ran => simp only [Session.act, Memory.write, if_pos (Nat.lt_succ_of_le inside), phase]

end

/-- A host that is neither right after reset nor after a write has launched the machine. -/
theorem phase_launched_of_not_early {p : Phase} (late : p ∉ [.justReset, .written]) :
    p ∈ [.launched, .stepped, .ran] := by
  cases p <;> simp at late ⊢

/-- What a transaction can do to the machine, with what held of the host's place. -/
inductive HostEffect (c : OpcodeMap) (d : Nat → Byte) (x : Session) : Transaction → State → Prop where
  | kept (t : Transaction) : HostEffect c d x t x.machine
  | reset : HostEffect c d x .reset State.reset
  | load {bytes : List Byte} (first : x.phase = .justReset) :
      HostEffect c d x (.load bytes) (x.machine.withMem (x.machine.mem.placeBytes Config.loadBase bytes))
  | step : HostEffect c d x .step (x.machine.stepTransaction c d).1
  | run (n : Nat) : HostEffect c d x (.run n) (x.machine.runTransaction c d n).1
  | write {a : Nat} (v : Byte) (inside : a ≤ 255) (early : x.phase ∈ [.justReset, .written]) :
      HostEffect c d x (.writeCell a v) (x.machine.withMem (x.machine.mem.put a v))

theorem act_hostEffect (c : OpcodeMap) (d : Nat → Byte) (x : Session) (t : Transaction) :
    HostEffect c d x t (x.act c d t).1.machine := by
  cases t with
  | reset => exact .reset
  | observe | readCell => exact .kept _
  | load bytes =>
    by_cases first : x.phase = .justReset
    · rcases Nat.lt_or_ge 256 bytes.length with long | fits
      · rw [act_load_too_long c d first long]; exact .kept _
      · rw [act_load_fits c d first fits]; exact .load first
    · rw [act_load_late c d bytes first]; exact .kept _
  | step =>
    by_cases ran : x.phase = .ran
    · rw [act_step_after_run c d ran]; exact .kept _
    · rw [act_step_performed c d ran]; exact .step
  | run n =>
    by_cases late : x.phase ∈ [.stepped, .ran]
    · rw [act_run_refused c d n late]; exact .kept _
    · rw [act_run_performed c d n late]; exact .run n
  | writeCell a v =>
    rcases Nat.lt_or_ge 255 a with outside | inside
    · rw [act_write_outside c d v outside]; exact .kept _
    · by_cases early : x.phase ∈ [.justReset, .written]
      · rw [act_write_early c d v inside early]; exact .write v inside early
      · rw [act_write_late c d v inside (phase_launched_of_not_early early)]; exact .kept _

/-- What each of the transactions keeps, a session of them keeps. -/
theorem actAll_induction {P : Session → Prop} {c : OpcodeMap} {d : Nat → Byte} {ts : List Transaction} {x : Session}
    (kept : ∀ t ∈ ts, ∀ y, P y → P (y.act c d t).1) (start : P x) : P (x.actAll c d ts) := by
  induction ts generalizing x with
  | nil => exact start
  | cons t rest ih =>
    exact ih (fun u mem => kept u (List.mem_cons_of_mem t mem)) (kept t List.mem_cons_self x start)

end Sys2Proof.Machine
end

section
/-! The invariant (spec/10_state.md sections 3, 4, 6, spec/20_memory.md section 1): reset meets it, and every
instruction, step and transaction keeps it. -/

namespace Sys2Proof.Machine

/-! ### Steps -/

/-- A step with a next state raises a fault and changes nothing else, or completes the instruction it fetched. -/
theorem stepWith_raises_or_effect {c : OpcodeMap} {d : Nat → Byte} {s t : State} (h : stepWith c d s = .next t) :
    (∃ k, t = s.withFault k) ∨ ∃ i, s.fetchDecode c d = .ok i ∧ Effect i s t := by
  obtain ⟨-, ⟨k, -, raised⟩ | ⟨i, decoded, executed⟩⟩ := stepWith_cases h
  · exact .inl ⟨k, raised⟩
  · exact (exec_raises_or_effect executed).imp_right fun effect => ⟨i, decoded, effect⟩

/-- CMP sets one flag, and every other instruction keeps FL. -/
theorem Effect.fl_cases {i : Instr} {s t : State} (effect : Effect i s t) :
    t.fl = s.fl ∨ t.fl = 0x01 ∨ t.fl = 0x02 ∨ t.fl = 0x04 := by
  cases effect with
  | @cmp _ a b i j =>
    rcases compareFlags_cases (s.reg i) (s.reg j) with ⟨-, equal⟩ | ⟨-, greater⟩ | ⟨-, less⟩
    · exact .inr (.inl equal)
    · exact .inr (.inr (.inl greater))
    · exact .inr (.inr (.inr less))
  | jeq | jne => split <;> exact .inl rfl
  | hlt | ldi | prn | mul | add | push | pop | call | ret | jmp => exact .inl rfl

theorem Effect.legalFlags {i : Instr} {s t : State} (effect : Effect i s t) (legal : legalFlags s.fl = true) :
    Machine.legalFlags t.fl = true := by
  rcases effect.fl_cases with same | flag | flag | flag 
  · rwa [same]
  all_goals rw [flag]; rfl

/-- PUSH and CALL store at a byte's address, and every other instruction keeps memory. -/
theorem Effect.memory_wf {i : Instr} {s t : State} (effect : Effect i s t) (wf : s.mem.wf = true) :
    t.mem.wf = true := by
  cases effect with
  | @push _ a sp | @call _ a sp => exact Memory.wf_put _ sp.isLt wf
  | jeq | jne => split <;> exact wf
  | hlt | ldi | prn | mul | add | pop | ret | cmp | jmp => exact wf

theorem State.Inv.withFault {s : State} (inv : s.Inv) (running : s.terminal = false) (k : Fault) :
    (s.withFault k).Inv := by
  obtain ⟨notHalted, -⟩ := terminal_eq_false.mp running
  exact ⟨inv.memory, inv.pc, inv.flags, fun halted => absurd (notHalted.symm.trans halted) Bool.false_ne_true⟩

theorem State.Inv.effect {i : Instr} {s t : State} (inv : s.Inv) (running : s.terminal = false)
    (effect : Effect i s t) : t.Inv := by
  obtain ⟨-, noFault⟩ := terminal_eq_false.mp running
  obtain ⟨pcLe, -⟩ := effect.pcMoves
  exact ⟨effect.memory_wf inv.memory, by omega, effect.legalFlags inv.flags, fun _ => effect.fault_eq.trans noFault⟩

/-- Settles O3: a step raises a fault from a state that is not halted, or has the effect of an instruction. -/
theorem stepKeepsInvariant : Obligations.StepKeepsInvariant := by
  intro c d s t inv stepped
  obtain ⟨running, -⟩ := stepWith_cases stepped
  rcases stepWith_raises_or_effect stepped with ⟨k, rfl⟩ | ⟨i, -, effect⟩
  · exact inv.withFault running k
  · exact inv.effect running effect

/-! ### Transactions -/

/-- Settles O2: each part of the invariant is read off the reset state. -/
theorem resetMeetsInvariant : Obligations.ResetMeetsInvariant :=
  ⟨Memory.wf_reset, by decide, rfl, fun _ => rfl⟩

theorem State.Inv.withMem {s : State} {m : Memory} (inv : s.Inv) (wf : m.wf = true) : (s.withMem m).Inv :=
  ⟨wf, inv.pc, inv.flags, inv.latches⟩

theorem State.Inv.stepTransaction {s : State} (inv : s.Inv) (c : OpcodeMap) (d : Nat → Byte) :
    (s.stepTransaction c d).1.Inv := by
  unfold State.stepTransaction
  split
  · exact stepKeepsInvariant c d s _ inv ‹_›
  · exact inv
  · exact inv

theorem State.Inv.runTransaction {s : State} (inv : s.Inv) (c : OpcodeMap) (d : Nat → Byte) (n : Nat) :
    (s.runTransaction c d n).1.Inv := by
  fun_induction State.runTransaction s c d n with
  | case1 s n terminal => exact inv
  | case2 s running => exact inv
  | case3 s running n ih => exact ih (inv.stepTransaction c d)

/-- Settles O55: every change a transaction can make to the machine keeps the invariant. -/
theorem everyTransactionKeepsInvariant : Obligations.EveryTransactionKeepsInvariant := by
  intro c d x t inv
  have effect := act_hostEffect c d x t
  generalize (x.act c d t).1.machine = m at effect ⊢
  cases effect with
  | kept => exact inv
  | reset => exact resetMeetsInvariant
  | load => exact inv.withMem (Memory.wf_placeBytes _ _ inv.memory)
  | step => exact inv.stepTransaction c d
  | run n => exact inv.runTransaction c d n
  | write v inside early => exact inv.withMem (Memory.wf_put v (Nat.lt_succ_of_le inside) inv.memory)

/-- Settles O4: reset meets the invariant and every transaction keeps it. -/
theorem everySessionKeepsInvariant : Obligations.EverySessionKeepsInvariant :=
  fun c d _ => actAll_induction (P := fun x => x.machine.Inv) (fun t _ x => everyTransactionKeepsInvariant c d x t)
    resetMeetsInvariant

end Sys2Proof.Machine
end

section
/-! The accessors of memory and its canonical form (spec/20_memory.md sections 1 and 5). -/

namespace Sys2Proof.Machine

theorem Memory.read_put (m : Memory) {a : Nat} (v : Byte) (inside : a < 256) :
    (m.put a v).read a = some v ∧ ∀ b, b ≠ a → (m.put a v).read b = m.read b := by
  refine ⟨?_, fun b other => ?_⟩
  · rw [read_of_lt _ inside, cell_put_same]
  · simp only [read, cell_put_other m v other]

/-- Settles O48: the accessors' bounds, and reading after `put`, which keeps the canonical form. -/
theorem writeChangesExactlyTheAddressedCell : Obligations.WriteChangesExactlyTheAddressedCell := by
  intro m a v
  refine ⟨fun outside => ⟨Memory.read_of_ge m outside, if_neg (Nat.not_lt.mpr outside)⟩, fun inside => ?_⟩
  obtain ⟨same, others⟩ := Memory.read_put m v inside
  exact ⟨m.put a v, if_pos inside, same, others, Memory.wf_put v inside⟩

theorem Memory.wfFrom_cons {lo k : Nat} {v : Byte} {rest : Memory} :
    wfFrom lo ((k, v) :: rest) = true ↔ lo ≤ k ∧ k < 256 ∧ v ≠ unlisted ∧ wfFrom (k + 1) rest = true := by
  simp only [wfFrom, Bool.and_eq_true, decide_eq_true_eq, and_assoc]

/-- Below the first listed address nothing is listed. -/
theorem Memory.cell_below_wfFrom {lo a : Nat} {m : Memory} (wf : wfFrom lo m = true) (below : a < lo) :
    m.cell a = unlisted := by
  induction m generalizing lo with
  | nil => rfl
  | cons e rest ih =>
    obtain ⟨k, v⟩ := e
    obtain ⟨above, -, -, wfRest⟩ := wfFrom_cons.mp wf
    rw [cell, if_neg (by omega)]
    exact ih wfRest (by omega)

/-- A memory that lists a cell differs there from one that lists higher addresses alone. -/
theorem Memory.cell_ne_of_listed_below {lo k : Nat} {v : Byte} {rest m : Memory} (listed : v ≠ unlisted)
    (wf : wfFrom lo m = true) (below : k < lo) : cell ((k, v) :: rest) k ≠ cell m k := by
  rw [cell_below_wfFrom wf below, cell, if_pos rfl]
  exact listed

/-- What the rest of two memories reads once their first cell is taken from both. -/
theorem Memory.cell_eq_of_cons {k : Nat} {v v' : Byte} {m m' : Memory} (wf : wfFrom (k + 1) m = true)
    (wf' : wfFrom (k + 1) m' = true) {a : Nat} (same : cell ((k, v) :: m) a = cell ((k, v') :: m') a) :
    cell m a = cell m' a := by
  rcases Nat.lt_or_ge k a with above | notAbove
  · have other : k ≠ a := by omega
    simpa only [cell, if_neg other] using same
  · rw [cell_below_wfFrom wf (by omega), cell_below_wfFrom wf' (by omega)]

/-- The first listed addresses agree, or the lower of them tells the two memories apart. -/
theorem Memory.eq_of_wfFrom {lo : Nat} {m m' : Memory} (wf : wfFrom lo m = true) (wf' : wfFrom lo m' = true)
    (same : ∀ a < 256, m.cell a = m'.cell a) : m = m' := by
  induction m generalizing lo m' with
  | nil =>
    cases m' with
    | nil => rfl
    | cons e' rest' =>
      obtain ⟨-, inside', listed', -⟩ := wfFrom_cons.mp wf'
      exact absurd (same e'.1 inside').symm (cell_ne_of_listed_below (m := []) listed' rfl (Nat.lt_succ_self _))
  | cons e rest ih =>
    obtain ⟨k, v⟩ := e
    obtain ⟨-, inside, listed, wfRest⟩ := wfFrom_cons.mp wf
    cases m' with
    | nil => exact absurd (same k inside) (cell_ne_of_listed_below (m := []) listed rfl (Nat.lt_succ_self _))
    | cons e' rest' =>
      obtain ⟨k', v'⟩ := e'
      obtain ⟨-, inside', listed', wfRest'⟩ := wfFrom_cons.mp wf'
      rcases lt_trichotomy k k' with lower | rfl | higher
      · exact absurd (same k inside) <| cell_ne_of_listed_below listed
          (wfFrom_cons.mpr ⟨Nat.le_refl k', inside', listed', wfRest'⟩) lower
      · have sameByte : v = v' := by simpa [cell] using same k inside
        have sameRest := ih wfRest wfRest' fun a ha => cell_eq_of_cons wfRest wfRest' (same a ha)
        rw [sameByte, sameRest]
      · exact absurd (same k' inside').symm <| cell_ne_of_listed_below listed'
          (wfFrom_cons.mpr ⟨Nat.le_refl k, inside, listed, wfRest⟩) higher

/-- Settles O49: equal reads are equal cells, and canonical lists with equal cells are equal. -/
theorem canonicalMemoriesAreEqualData : Obligations.CanonicalMemoriesAreEqualData := by
  intro m m' wf wf' same
  refine Memory.eq_of_wfFrom wf wf' fun a inside => ?_
  have reads := same a
  rw [Memory.read_of_lt m inside, Memory.read_of_lt m' inside] at reads
  exact Option.some.inj reads

end Sys2Proof.Machine
end

section
/-! The host's transactions and their order of use (spec/70_reset_and_hazards.md section 3), from the equations of
`Session.act` and `actAll_induction`. -/

namespace Sys2Proof.Machine

/-! ### The accessors -/

/-- Settles O54: the accessor `read` answers what memory reads, which is bounds-checked. -/
theorem observingChangesNothing : Obligations.ObservingChangesNothing := by
  intro c d x
  refine ⟨rfl, fun a v read => ?_, fun a outside => ?_, fun a inside => ?_⟩
  · simp only [Session.act, read]
  · simp only [Session.act, Memory.read_of_ge x.machine.mem outside]
  · exact ⟨x.machine.mem.cell a, Memory.read_of_lt x.machine.mem (Nat.lt_succ_of_le inside)⟩

/-- Settles O56: the three equations of a host write. -/
theorem hostWriteIsBoundsCheckedAndOnlyBeforeTheStart :
    Obligations.HostWriteIsBoundsCheckedAndOnlyBeforeTheStart := by
  intro c d x a v
  refine ⟨act_write_outside c d v, fun inside early => ?_, act_write_late c d v⟩
  exact ⟨x.machine.mem.put a v, act_write_early c d v inside early,
    Memory.read_put x.machine.mem v (Nat.lt_succ_of_le inside)⟩

/-! ### Reset and load -/

theorem reset_reg (r : Fin 8) : State.reset.reg r = if r = 7 then 0xF4 else 0x00 := by
  revert r
  decide

/-- Settles O1: the reset transaction leaves `State.reset`, whose memory lists nothing. -/
theorem resetLeavesTheResetTable : Obligations.ResetLeavesTheResetTable :=
  fun _ _ _ => ⟨State.reset, rfl, rfl, reset_reg, rfl, rfl, fun _ => Memory.read_of_lt [], rfl, rfl, rfl⟩

/-- Settles O50: an accepted load changes memory alone, and `cell_placeBytes` says what memory then holds. -/
theorem launchStateHoldsTheLoadedBytes : Obligations.LaunchStateHoldsTheLoadedBytes := by
  intro c d bytes fits
  rw [act_load_fits c d rfl fits]
  have placed (a : Nat) (inside : a < 256) := Memory.cell_placeBytes State.reset.mem Config.loadBase bytes a inside
  refine ⟨_, rfl, rfl, rfl, fun r notSp => (reset_reg r).trans (if_neg notSp), reset_reg 7, rfl, rfl, rfl, rfl,
    fun i loaded => ?_, fun i above inside => ?_⟩
  · rw [Memory.read_of_lt _ (loaded.trans_le fits)]
    exact congrArg some ((placed i (loaded.trans_le fits)).trans (dif_pos ⟨Nat.zero_le i, loaded⟩))
  · rw [Memory.read_of_lt _ (Nat.lt_succ_of_le inside)]
    refine congrArg some ((placed i (Nat.lt_succ_of_le inside)).trans (dif_neg ?_))
    rintro ⟨-, loaded⟩
    exact Nat.not_lt.mpr above loaded

/-- A step or a run requested, or a load or a write performed, is no longer the place right after reset. -/
theorem act_phase_of_started {c : OpcodeMap} {d : Nat → Byte} {x : Session} {t : Transaction}
    (started : t = .step ∨ (∃ n, t = .run n) ∨ ((∃ b, t = .load b) ∨ ∃ a v, t = .writeCell a v) ∧ (x.act c d t).2 = .done) :
    (x.act c d t).1.phase ≠ .justReset := by
  by_cases first : x.phase = .justReset
  · rcases started with rfl | ⟨n, rfl⟩ | ⟨⟨bytes, rfl⟩ | ⟨a, v, rfl⟩, done⟩
    · simp [act_step_performed c d (x := x) (by simp [first])]
    · simp [act_run_performed c d (x := x) n (by simp [first])]
    · rcases Nat.lt_or_ge 256 bytes.length with long | fits
      · simp [act_load_too_long c d first long] at done
      · simp [act_load_fits c d first fits]
    · rcases Nat.lt_or_ge 255 a with outside | inside
      · simp [act_write_outside c d v outside] at done
      · simp [act_write_early c d (x := x) v inside (by simp [first])]
  · refine act_phase_ne_justReset c d first ?_
    rintro rfl
    simp at started

/-- A session without a reset does not come back to the place right after one, and loads nothing. -/
theorem actAll_load_late {c : OpcodeMap} {d : Nat → Byte} {x : Session} {ts : List Transaction} (bytes : List Byte)
    (notFirst : x.phase ≠ .justReset) (noReset : .reset ∉ ts) :
    (x.actAll c d ts).act c d (.load bytes) = (x.actAll c d ts, .outOfOrder) :=
  act_load_late c d bytes <| actAll_induction (P := fun y => y.phase ≠ .justReset)
    (fun _ mem _ later => act_phase_ne_justReset c d later (ne_of_mem_of_not_mem mem noReset)) notFirst

/-- Settles O51: the three equations of a load, and the host's place never goes back without a reset. -/
theorem loadOnlyOnceAfterResetAndOnlyIfItFits : Obligations.LoadOnlyOnceAfterResetAndOnlyIfItFits := by
  refine ⟨fun c d x bytes first fits => ⟨_, if_pos fits, act_load_fits c d first fits⟩,
    fun c d x bytes => act_load_too_long c d, fun c d x y t ts bytes started noReset hy => ?_,
    fun c d x ts bytes => actAll_load_late bytes⟩
  subst hy
  exact actAll_load_late bytes (act_phase_of_started started) noReset

/-! ### Step and run -/

theorem outcome_ne_continued {s : State} (terminal : s.terminal = true) : s.outcome ≠ .continued := by
  cases fault : s.fault with
  | some k => simp [outcome_of_fault fault]
  | none =>
    have halted : s.halted = true := by simpa [State.terminal, fault] using terminal
    simp [outcome_of_halted fault halted]

/-- Settles O52: the two equations of a step request, which a running state answers with a step and a terminal one with
its outcome. -/
theorem stepTransactionReportsTheOutcome : Obligations.StepTransactionReportsTheOutcome := by
  intro c d x
  refine ⟨fun notRan running => ?_, fun notRan terminal => ?_, fun ran terminal => ?_, fun ran running => ?_,
    outcome_ne_continued⟩
  · obtain ⟨t, stepped, -⟩ := stepEndsInOneOfThreeWays c d x.machine running
    exact ⟨t, stepped, by rw [act_step_performed c d notRan, stepTransaction_of_next stepped]⟩
  · rw [act_step_performed c d notRan, stepTransaction_of_terminal c d terminal]
  · rw [act_step_after_run c d ran, if_pos terminal]
  · rw [act_step_after_run c d ran, running, if_neg Bool.false_ne_true]

/-- The machine after one step request. -/
def State.stepped (c : OpcodeMap) (d : Nat → Byte) (s : State) : State :=
  (s.stepTransaction c d).1

/-- Step requests one after another do to the machine what as many step transactions do, unless the run was made. -/
theorem iterate_act_step_machine (c : OpcodeMap) (d : Nat → Byte) {x : Session} (notRan : x.phase ≠ .ran) (k : Nat) :
    ((fun z : Session => (z.act c d .step).1)^[k] x).machine = (State.stepped c d)^[k] x.machine := by
  induction k generalizing x with
  | zero => rfl
  | succ k ih =>
    rw [Function.iterate_succ_apply, Function.iterate_succ_apply, act_step_performed c d notRan]
    exact ih nofun

/-- A run either stops at the first terminal state, after at most `n` steps, and reports its outcome, or performs `n`
steps through states none of which is terminal. -/
theorem runTransaction_cases (c : OpcodeMap) (d : Nat → Byte) (n : Nat) (s : State) :
    (∃ k ≤ n, s.runTransaction c d n = ((State.stepped c d)^[k] s, some ((State.stepped c d)^[k] s).outcome) ∧
      ((State.stepped c d)^[k] s).terminal = true ∧ ∀ j < k, ((State.stepped c d)^[j] s).terminal = false) ∨
    (s.runTransaction c d n = ((State.stepped c d)^[n] s, none) ∧
      ∀ j ≤ n, ((State.stepped c d)^[j] s).terminal = false) := by
  induction n generalizing s with
  | zero =>
    cases ends : s.terminal with
    | true => exact .inl ⟨0, Nat.le_refl 0, runTransaction_of_terminal c d 0 ends, ends, nofun⟩
    | false => exact .inr ⟨runTransaction_zero c d ends, fun j hj => by rwa [Nat.le_zero.mp hj]⟩
  | succ n ih =>
    cases ends : s.terminal with
    | true => exact .inl ⟨0, Nat.zero_le _, runTransaction_of_terminal c d _ ends, ends, nofun⟩
    | false =>
      rw [runTransaction_succ c d n ends]
      rcases ih (s.stepped c d) with ⟨k, atMost, performed, terminal, before⟩ | ⟨performed, before⟩
      · exact .inl ⟨k + 1, Nat.succ_le_succ atMost, performed, terminal, fun
          | 0, _ => ends
          | j + 1, hj => before j (Nat.lt_of_succ_lt_succ hj)⟩
      · exact .inr ⟨performed, fun
          | 0, _ => ends
          | j + 1, hj => before j (Nat.le_of_succ_le_succ hj)⟩

/-- Settles O53: `runTransaction_cases`, with the iterated transaction `step` of the session for that of the machine. -/
theorem runStepsUntilTerminal : Obligations.RunStepsUntilTerminal := by
  refine ⟨fun c d n x y r first performed => ?_, fun c d n x => act_run_refused c d n⟩
  have notRan : x.phase ≠ .ran := fun ran => first (by simp [ran])
  rw [act_run_performed c d n first, Prod.mk.injEq] at performed
  obtain ⟨rfl, rfl⟩ := performed
  refine ⟨rfl, ?_⟩
  simp only [iterate_act_step_machine c d notRan]
  rcases runTransaction_cases c d n x.machine with ⟨k, atMost, ran, terminal, before⟩ | ⟨ran, before⟩
  · rw [ran]
    exact .inl ⟨_, rfl, terminal, rfl, k, atMost, rfl, before⟩
  · rw [ran]
    exact .inr ⟨rfl, rfl, before⟩

/-! ### The order of use -/

/-- After launch only a reset, a step or a run reaches the machine: a load or a write comes too late. -/
theorem act_machine_of_launched {c : OpcodeMap} {d : Nat → Byte} {x : Session} {t : Transaction}
    (launched : x.phase ∈ [.launched, .stepped, .ran]) (changed : (x.act c d t).1.machine ≠ x.machine) :
    t = .reset ∨ t = .step ∨ ∃ n, t = .run n := by
  have effect := act_hostEffect c d x t
  generalize (x.act c d t).1.machine = m at effect changed
  cases effect with
  | kept => exact absurd rfl changed
  | reset => exact .inl rfl
  | step => exact .inr (.inl rfl)
  | run n => exact .inr (.inr ⟨n, rfl⟩)
  | load first => simp [first] at launched
  | write v inside early => cases phase : x.phase <;> simp [phase] at launched early

/-- After the run nothing but a reset changes the session. -/
theorem act_of_ran {x : Session} {t : Transaction} (c : OpcodeMap) (d : Nat → Byte) (ran : x.phase = .ran)
    (notReset : t ≠ .reset) : (x.act c d t).1 = x := by
  cases t with
  | reset => exact absurd rfl notReset
  | observe | readCell => rfl
  | load bytes => rw [act_load_late c d bytes (by simp [ran])]
  | step => rw [act_step_after_run c d ran]
  | run n => rw [act_run_refused c d n (by simp [ran])]
  | writeCell a v =>
    rcases Nat.lt_or_ge 255 a with outside | inside
    · rw [act_write_outside c d v outside]
    · rw [act_write_late c d v inside (by simp [ran])]

/-- A run requested where no step was leaves the host where the run is made. -/
theorem act_run_phase (c : OpcodeMap) (d : Nat → Byte) {x : Session} (n : Nat) (notStepped : x.phase ≠ .stepped) :
    (x.act c d (.run n)).1.phase = .ran := by
  by_cases ran : x.phase = .ran
  · rwa [act_run_refused c d n (by simp [ran])]
  · rw [act_run_performed c d n (by simp [notStepped, ran])]

/-- Settles O57: by `act_machine_of_launched`, and because a session without a reset keeps a host that has made its run
exactly where it is, and one that has stepped at its place. -/
theorem hostFollowsTheOrderOfUse : Obligations.HostFollowsTheOrderOfUse := by
  refine ⟨fun c d x t => act_machine_of_launched, fun c d x y n ts notStepped hy noReset => ?_,
    fun c d x y n ts notRan noReset hy => ?_⟩
  · have ran : y.phase = .ran := by rw [hy, act_run_phase c d n notStepped]
    refine actAll_induction (P := fun z => z = y) (fun t mem z same => ?_) rfl
    rw [same]
    exact act_of_ran c d ran (ne_of_mem_of_not_mem mem noReset)
  · have stepped : y.phase = .stepped := by
      rw [hy, act_step_performed c d notRan]
      exact actAll_induction (P := fun z => z.phase = .stepped)
        (fun _ mem _ here => act_phase_of_stepped c d here (ne_of_mem_of_not_mem mem noReset)) rfl
    exact act_run_refused c d n (by simp [stepped])

end Sys2Proof.Machine
end

section
/-! Encoding, fetch and decode (spec/30_encoding.md sections 1 to 3, spec/40_step_cycle.md R110 to R114). -/

namespace Sys2Proof.Machine

/-! ### Encoding -/

/-- Every instruction is its mnemonic with some operand bytes. -/
theorem exists_instrOf (i : Instr) : ∃ m a b, i = instrOf m a b := by
  refine ⟨i.mnemonic, ?_⟩
  cases i with
  | hlt | ret => exact ⟨0, 0, rfl⟩
  | prn a | push a | pop a | call a | jmp a | jeq a | jne a => exact ⟨a, 0, rfl⟩
  | ldi a b | mul a b | add a b | cmp a b => exact ⟨a, b, rfl⟩

/-- An encoding is the opcode byte and the operand bytes, cut to LEN. -/
theorem encode_instrOf (c : OpcodeMap) (m : Mnemonic) (a b : Byte) :
    encode c (instrOf m a b) = [c.byte m, a, b].take m.length := by
  cases m <;> rfl

/-- An instruction depends on an operand byte only when LEN reaches it. -/
theorem instrOf_congr {m : Mnemonic} {a b a' b' : Byte} (first : 1 < m.length → a = a')
    (second : 2 < m.length → b = b') : instrOf m a b = instrOf m a' b' := by
  cases m with
  | hlt | ret => rfl
  | prn | push | pop | call | jmp | jeq | jne => rw [first (by decide)]; rfl
  | ldi | mul | add | cmp => rw [first (by decide), second (by decide)]

theorem length_encode (c : OpcodeMap) (m : Mnemonic) (a b : Byte) : (encode c (instrOf m a b)).length = m.length := by
  cases m <;> rfl

/-- The encoding at its positions: the opcode, and the operand bytes LEN reaches. -/
theorem encode_getElem? (c : OpcodeMap) {m : Mnemonic} (a b : Byte) {k : Nat} (reached : k < m.length) :
    (encode c (instrOf m a b))[k]? = [c.byte m, a, b][k]? := by
  rw [encode_instrOf, List.getElem?_take_of_lt reached]

theorem length_pos (m : Mnemonic) : 0 < m.length := by
  cases m <;> decide

/-- Settles O5: the bytes at the positions LEN reaches are the opcode and the operands of the instruction. -/
theorem decodeOfEncodeIsTheInstruction : Obligations.DecodeOfEncodeIsTheInstruction := by
  intro c i filler rest o a b begins
  obtain ⟨m, a', b', rfl⟩ := exists_instrOf i
  have byte {k : Nat} (reached : k < m.length) : [c.byte m, a', b'][k]? = (o :: a :: b :: rest)[k]? := by
    rw [← begins, List.getElem?_append_left (by rwa [length_encode]), encode_getElem? c a' b' reached]
  refine decode_eq_ok.mpr ⟨m, ?_, instrOf_congr (fun reached => ?_) fun reached => ?_⟩
  · simpa using byte (length_pos m)
  · simpa using (byte reached).symm
  · simpa using (byte reached).symm

/-- Settles O6: the encoding is the first LEN of the bytes that decode to the instruction. -/
theorem decodedBytesBeginWithTheEncoding : Obligations.DecodedBytesBeginWithTheEncoding := by
  intro c i o a b decoded
  obtain ⟨m, rfl, rfl⟩ := decode_eq_ok.mp decoded
  rw [encode_instrOf]
  exact List.take_prefix m.length _

/-- Settles O8: the default opcode map evaluated at the nine words. -/
theorem defaultWordsDecode : Obligations.DefaultWordsDecode := by
  unfold Obligations.DefaultWordsDecode
  decide

/-! ### Steps of known bytes -/

theorem stepWith_of_fetched {s : State} {c : OpcodeMap} {d : Nat → Byte} {i : Instr} (running : s.terminal = false)
    (fetched : s.fetchDecode c d = .ok i) : stepWith c d s = exec i s := by
  rcases stepWith_of_running c d running with ⟨k, refused, -⟩ | ⟨i', fetched', stepped⟩
  · cases refused.symm.trans fetched
  · cases fetched'.symm.trans fetched
    exact stepped

theorem fetchDecode_of_decode {s : State} {c : OpcodeMap} {d : Nat → Byte} {o : Byte} {i : Instr}
    (read : s.mem.read s.pc.toNat = some o)
    (decoded : decode c o (s.operandLatch d 1) (s.operandLatch d 2) = .ok i) : s.fetchDecode c d = .ok i := by
  simp only [State.fetchDecode, read, decoded]

/-- Settles O9: the bytes latched at pc are what fetch and decode answer from. -/
theorem stepRunsTheDecodedInstruction : Obligations.StepRunsTheDecodedInstruction :=
  ⟨fun _ _ _ running read decoded => stepWith_of_fetched running (fetchDecode_of_decode read decoded),
    fun _ _ _ _ _ running read decoded => stepWith_of_fetched running (fetchDecode_of_decode read decoded)⟩

/-- An operand latch holds what memory reads. -/
theorem operandLatch_of_read {s : State} {d : Nat → Byte} {k : Nat} {v : Byte}
    (read : s.mem.read (s.pc.toNat + k) = some v) : s.operandLatch d k = v := by
  rw [State.operandLatch, read]

/-- Where memory holds the opcode of `m` at pc, and after it the operand bytes LEN reaches, a step is that
instruction. -/
theorem stepWith_of_bytes {s : State} {c : OpcodeMap} (d : Nat → Byte) {m : Mnemonic} {a b : Byte}
    (running : s.terminal = false) (opcode : s.mem.read s.pc.toNat = some (c.byte m))
    (first : 1 < m.length → s.mem.read (s.pc.toNat + 1) = some a)
    (second : 2 < m.length → s.mem.read (s.pc.toNat + 2) = some b) : stepWith c d s = exec (instrOf m a b) s := by
  refine stepWith_of_fetched running (fetchDecode_of_decode opcode (decode_eq_ok.mpr ⟨m, rfl, ?_⟩))
  exact instrOf_congr (fun reached => operandLatch_of_read (first reached))
    fun reached => operandLatch_of_read (second reached)

/-- Settles O10: `stepWith_of_bytes` at the positions of the encoding. -/
theorem encodedBytesAtPcAreExecuted : Obligations.EncodedBytesAtPcAreExecuted := by
  intro c d s i running held
  obtain ⟨m, a, b, rfl⟩ := exists_instrOf i
  exact stepWith_of_bytes d running (held 0 _ (encode_getElem? c a b (length_pos _)))
    (fun reached => held 1 _ (encode_getElem? c a b reached)) fun reached => held 2 _ (encode_getElem? c a b reached)

end Sys2Proof.Machine
end

section
/-! The operand checks (spec/40_step_cycle.md R110 part 3, R112, R115) and what a step reads before them: nothing a
don't-care latch holds reaches its result. -/

namespace Sys2Proof.Machine

/-- An operand byte outside memory raises OutOfBounds before all else the instruction does. -/
theorem exec_of_short {i : Instr} {s : State} (short : 255 < s.pc.toNat + i.mnemonic.length - 1) :
    exec i s = raise .outOfBounds s := by
  cases i with
  | hlt | ldi | prn | mul | add | push | pop | call | ret | cmp | jmp | jeq | jne => exact needBytes_short short

/-- A register operand above 7 raises OutOfBounds: by its own check, or by that of the operand bytes before it. -/
theorem exec_of_illegal_register {i : Instr} {s : State} (illegal : ∃ v ∈ i.registerOperands, 7 < v.toNat) :
    exec i s = raise .outOfBounds s := by
  cases i with
  | hlt | ret => simp [Instr.registerOperands] at illegal
  | prn | push | pop | call | jmp | jeq | jne =>
    exact formatR_raises (.inr (by simpa [Instr.registerOperands] using illegal))
  | ldi => exact formatRI_raises (.inr (by simpa [Instr.registerOperands] using illegal))
  | mul | add | cmp => exact formatRR_raises (.inr (by simpa [Instr.registerOperands] using illegal))

/-- Settles O15: every register operand is checked before any effect. -/
theorem registerOperandAbove7RaisesOutOfBounds : Obligations.RegisterOperandAbove7RaisesOutOfBounds :=
  fun _ _ _ => exec_of_illegal_register

/-- A step whose opcode byte is known executes that mnemonic, with some operand bytes. -/
theorem stepWith_of_opcode {s : State} {c : OpcodeMap} (d : Nat → Byte) {m : Mnemonic} (running : s.terminal = false)
    (opcode : s.mem.read s.pc.toNat = some (c.byte m)) :
    stepWith c d s = exec (instrOf m (s.operandLatch d 1) (s.operandLatch d 2)) s :=
  stepWith_of_fetched running (fetchDecode_of_decode opcode (decode_eq_ok.mpr ⟨m, rfl, rfl⟩))

/-- Settles O13: whatever the latches hold, the instruction's first check raises. -/
theorem operandByteAbove255RaisesOutOfBounds : Obligations.OperandByteAbove255RaisesOutOfBounds := by
  intro c d s m running opcode short
  exact (stepWith_of_opcode d running opcode).trans (exec_of_short (by rwa [mnemonic_instrOf]))

/-- What a step does from a state that is not terminal, for every value of the don't-care latches: it raises at fetch,
at decode or at the check of the operand bytes, or executes the instruction in memory. -/
theorem stepWith_running_cases (c : OpcodeMap) {s : State} (running : s.terminal = false) :
    (255 < s.pc.toNat ∧ ∀ d, stepWith c d s = .next (s.withFault .outOfBounds)) ∨
    (s.pc.toNat ≤ 255 ∧ mnemonicOf c (s.byteAt 0) = none ∧ ∀ d, stepWith c d s = .next (s.withFault .invalidOpcode)) ∨
    (∃ m, s.pc.toNat ≤ 255 ∧ mnemonicOf c (s.byteAt 0) = some m ∧ 255 < s.pc.toNat + m.length - 1 ∧
      ∀ d, stepWith c d s = .next (s.withFault .outOfBounds)) ∨
    (∃ m, s.pc.toNat ≤ 255 ∧ mnemonicOf c (s.byteAt 0) = some m ∧ s.pc.toNat + m.length - 1 ≤ 255 ∧
      ∀ d, stepWith c d s = exec (instrOf m (s.byteAt 1) (s.byteAt 2)) s) := by
  rcases Nat.lt_or_ge 255 s.pc.toNat with above | inMemory
  · exact .inl ⟨above, fun d => fetchAbove255RaisesOutOfBounds c d s running above⟩
  have opcodeRead : s.mem.read s.pc.toNat = some (s.byteAt 0) := Memory.read_of_lt s.mem (Nat.lt_succ_of_le inMemory)
  cases found : mnemonicOf c (s.byteAt 0) with
  | none =>
    refine .inr (.inl ⟨inMemory, rfl, fun d => ?_⟩)
    refine (invalidOpcodeExactlyForUnknownBytes c d s running).mpr ⟨inMemory, fun m isOpcode => ?_⟩
    exact mnemonicOf_eq_none.mp found m (Option.some.inj (opcodeRead.symm.trans isOpcode))
  | some m =>
    have opcode : s.mem.read s.pc.toNat = some (c.byte m) := by rw [opcodeRead, (mnemonicOf_eq_some _ _ _).mp found]
    rcases Nat.lt_or_ge 255 (s.pc.toNat + m.length - 1) with short | fits
    · exact .inr (.inr (.inl ⟨m, inMemory, rfl, short, fun d =>
        operandByteAbove255RaisesOutOfBounds c d s m running opcode short⟩))
    · refine .inr (.inr (.inr ⟨m, inMemory, rfl, fits, fun d => stepWith_of_bytes d running opcode ?_ ?_⟩))
      · exact fun reached => Memory.read_of_lt s.mem (by omega)
      · exact fun reached => Memory.read_of_lt s.mem (by omega)

/-- Settles O14: a terminal state's answer and each case of `stepWith_running_cases` hold for every latch value. -/
theorem stepIgnoresDontCareLatches : Obligations.StepIgnoresDontCareLatches := by
  intro c d d' s
  cases report : s.stopReport with
  | some r => simp only [stepWith, report]
  | none =>
    rcases stepWith_running_cases c (stopReport_eq_none.mp report)
      with ⟨-, e⟩ | ⟨-, -, e⟩ | ⟨m, -, -, -, e⟩ | ⟨m, -, -, -, e⟩
    all_goals rw [e d, e d']

end Sys2Proof.Machine
end

section
/-! HLT, PRN and CMP (spec/41_move_halt_output.md R130, R132, spec/42_alu.md R143). -/

namespace Sys2Proof.Machine

/-- Settles O23: format Z raises, or HLT sets its latch and advances by 1. -/
theorem hltHaltsAndAdvancesByOne : Obligations.HltHaltsAndAdvancesByOne := by
  refine ⟨fun _ => rfl, fun _ => formatZ_raises, fun s fits => ?_⟩
  have advanced : (s.setHalted.advance 1).pc.toNat = s.pc.toNat + 1 :=
    advance_pc_toNat (by rw [State.setHalted_pc]; omega)
  exact ⟨s.setHalted.advance 1, formatZ_executes fits, rfl, advanced, fun _ _ => rfl, rfl, fun _ => rfl, rfl, rfl⟩

/-- Settles O25: format R raises, or PRN appends the register named and advances by 2. -/
theorem prnAppendsTheRegister : Obligations.PrnAppendsTheRegister := by
  refine ⟨fun _ _ => rfl, fun _ _ => formatR_raises, fun a i s fits ha => ?_⟩
  have advanced : ((s.emit (s.reg i)).advance 2).pc.toNat = s.pc.toNat + 2 :=
    advance_pc_toNat (by rw [State.emit_pc]; omega)
  exact ⟨(s.emit (s.reg i)).advance 2, formatR_executes fits ha, rfl, advanced, fun _ _ => rfl, rfl, fun _ => rfl,
    ⟨rfl, rfl⟩⟩

/-- A compare sets exactly the flag of its operands' order. -/
theorem compareFlags_spec (p q : Byte) :
    (flagE (compareFlags p q) = true ↔ p.toNat = q.toNat) ∧ (flagG (compareFlags p q) = true ↔ p.toNat > q.toNat) ∧
    (flagL (compareFlags p q) = true ↔ p.toNat < q.toNat) ∧
    (compareFlags p q = 0x01 ∨ compareFlags p q = 0x02 ∨ compareFlags p q = 0x04) := by
  rcases compareFlags_cases p q with ⟨order, flags⟩ | ⟨order, flags⟩ | ⟨order, flags⟩
  · simp [flags, flagE, flagG, flagL, order]
  · simp [flags, flagE, flagG, flagL, order, order.ne', order.le]
  · simp [flags, flagE, flagG, flagL, order, order.ne, order.le]

/-- Settles O28: format RR raises, or CMP writes FL as `compareFlags_spec` says and advances by 3. -/
theorem cmpSetsExactlyOneFlag : Obligations.CmpSetsExactlyOneFlag := by
  refine ⟨fun _ _ _ => rfl, fun _ _ _ => formatRR_raises, fun a b i j s fits ha hb => ?_⟩
  obtain ⟨equal, greater, less, oneOfThree⟩ := compareFlags_spec (s.reg i) (s.reg j)
  have advanced : ((s.setFl (compareFlags (s.reg i) (s.reg j))).advance 3).pc.toNat = s.pc.toNat + 3 :=
    advance_pc_toNat (by rw [State.setFl_pc]; omega)
  exact ⟨_, formatRR_executes fits ha hb, equal, greater, less, oneOfThree, advanced, fun _ _ => rfl, fun _ => rfl,
    ⟨rfl, rfl⟩, rfl⟩

end Sys2Proof.Machine
end

section
/-! JEQ and JNE (spec/44_control_flow.md R163 to R166). -/

namespace Sys2Proof.Machine

/-- A conditional jump: to the byte `v` when `taken`, else past the jump. -/
def State.branch (s : State) (taken : Bool) (v : Byte) : State :=
  if taken then s.jumpTo v else s.advance 2

theorem branch_pc_toNat {s : State} (taken : Bool) (v : Byte) (fits : s.pc.toNat ≤ 254) :
    (s.branch taken v).pc.toNat = if taken = true then v.toNat else s.pc.toNat + 2 := by
  cases taken
  · exact advance_pc_toNat (by omega)
  · exact zext9_toNat v

theorem branch_changes_pc_alone (s : State) (taken : Bool) (v : Byte) : { s.branch taken v with pc := s.pc } = s := by
  cases taken <;> rfl

theorem exec_jeq {a : Byte} {i : Fin 8} {s : State} (fits : s.pc.toNat ≤ 254) (ha : a.toNat = i.val) :
    exec (.jeq a) s = .next (s.branch (flagE s.fl) (s.reg i)) :=
  formatR_executes fits ha

theorem exec_jne {a : Byte} {i : Fin 8} {s : State} (fits : s.pc.toNat ≤ 254) (ha : a.toNat = i.val) :
    exec (.jne a) s = .next (s.branch (!flagE s.fl) (s.reg i)) := by
  refine (formatR_executes fits ha).trans ?_
  cases flagE s.fl <;> rfl

/-- Settles O34: format R raises, or JEQ branches on E. -/
theorem jeqJumpsWhenEqual : Obligations.JeqJumpsWhenEqual :=
  ⟨fun _ _ => rfl, fun _ _ => formatR_raises, fun _ _ s fits ha =>
    ⟨_, exec_jeq fits ha, branch_pc_toNat _ _ fits, branch_changes_pc_alone s _ _⟩⟩

/-- Settles O35: format R raises, or JNE branches on the complement of E. -/
theorem jneJumpsWhenNotEqual : Obligations.JneJumpsWhenNotEqual := by
  refine ⟨fun _ _ => rfl, fun _ _ => formatR_raises, fun _ _ s fits ha =>
    ⟨_, exec_jne fits ha, ?_, branch_changes_pc_alone s _ _⟩⟩
  simp only [branch_pc_toNat _ _ fits, Bool.not_eq_true', flagE]

/-- Settles O36: E at the jump is E as CMP left it, which says whether the registers were equal. -/
theorem conditionalJumpsFollowTheLastCompare : Obligations.ConditionalJumpsFollowTheLastCompare := by
  intro a b i j s fits ha hb
  obtain ⟨-, -, compares⟩ := cmpSetsExactlyOneFlag
  obtain ⟨t, executed, setE, -⟩ := compares a b i j s fits ha hb
  refine ⟨t, executed, fun e k u sameFl fitsJump he => ?_⟩
  have equal : flagE u.fl = true ↔ s.reg i = s.reg j := by rw [sameFl, setE, BitVec.toNat_inj]
  refine ⟨⟨_, exec_jeq fitsJump he, ?_⟩, ⟨_, exec_jne fitsJump he, ?_⟩⟩
  · simp only [branch_pc_toNat _ _ fitsJump, equal]
  · simp only [branch_pc_toNat _ _ fitsJump, Bool.not_eq_true', ← Bool.not_eq_true, equal, ite_not]

end Sys2Proof.Machine
end

section
/-! PUSH, POP and CALL (spec/43_stack.md R150, R151, spec/44_control_flow.md R160). -/

namespace Sys2Proof.Machine

/-! ### The stack pointer -/

theorem stepDown_of_zero {v : Byte} (zero : v.toNat = 0) : stepDown v = none :=
  stepDown_eq_none.mpr (BitVec.eq_of_toNat_eq zero)

/-- SP can go down from every byte but 0. -/
theorem stepDown_isSome_of_ne {v : Byte} (h : v.toNat ≠ 0) : ∃ w, stepDown v = some w := by
  refine Option.ne_none_iff_exists'.mp fun none => h ?_
  rw [stepDown_eq_none.mp none]
  rfl

/-- A store changes the addressed cell alone. -/
theorem State.read_store (s : State) (a v : Byte) :
    (s.store a v).mem.read a.toNat = some v ∧ SameMemoryExcept a.toNat s (s.store a v) :=
  Memory.read_put s.mem v a.isLt

/-! ### What each of the three answers -/

/-- The byte POP raises by 1: the one loaded where SP itself is the destination (the spec's decision D27). -/
def State.popBase (s : State) (i : Fin 8) : Byte :=
  if i = Config.spIndex then s.load s.sp else s.sp

theorem State.popBase_of_ne {s : State} {i : Fin 8} (notSp : i ≠ 7) : s.popBase i = s.sp :=
  if_neg notSp

theorem State.popBase_sp (s : State) : s.popBase 7 = s.load s.sp :=
  if_pos rfl

section
variable {a sp : Byte} {i : Fin 8} {s : State} (fits : s.pc.toNat ≤ 254) (ha : a.toNat = i.val)
include fits ha

theorem execPush_stackFault (bottom : s.sp.toNat = 0) : execPush a s = raise .stackFault s := by
  rw [execPush, formatR_executes fits ha, stepDown_of_zero bottom]

theorem execPush_stores (down : stepDown s.sp = some sp) :
    execPush a s = .next (((s.setSp sp).store sp ((s.setSp sp).reg i)).advance 2) := by
  rw [execPush, formatR_executes fits ha, down]

theorem execPop_stackFault (top : (s.popBase i).toNat = 255) : execPop a s = raise .stackFault s := by
  have up : stepUp (if i = Config.spIndex then s.load s.sp else s.sp) = none := stepUp_eq_none.mpr top
  simp only [execPop, formatR_executes fits ha, up]

theorem execPop_loads (up : stepUp (s.popBase i) = some sp) :
    execPop a s = .next (((s.setReg i (s.load s.sp)).setSp sp).advance 2) := by
  have up' : stepUp (if i = Config.spIndex then s.load s.sp else s.sp) = some sp := up
  simp only [execPop, formatR_executes fits ha, up']

theorem execCall_stackFault (bottom : s.sp.toNat = 0) : execCall a s = raise .stackFault s := by
  rw [execCall, formatR_executes fits ha, stepDown_of_zero bottom]

theorem execCall_no_return_address (notBottom : s.sp.toNat ≠ 0) (last : s.pc.toNat = 254) :
    execCall a s = raise .outOfBounds s := by
  obtain ⟨sp, down⟩ := stepDown_isSome_of_ne notBottom
  simp only [execCall, formatR_executes fits ha, down]
  exact if_pos (by omega)

theorem execCall_calls (down : stepDown s.sp = some sp) (returns : s.pc.toNat ≤ 253) :
    execCall a s = .next
      (((s.setSp sp).store sp (BitVec.ofNat 8 (s.pc.toNat + 2))).jumpTo ((s.setSp sp).reg i)) := by
  simp only [execCall, formatR_executes fits ha, down]
  exact if_neg (by omega)

end

/-! ### The obligations -/

/-- A byte up to 7 names a register. -/
theorem exists_register {v : Byte} (legal : v.toNat ≤ 7) : ∃ i : Fin 8, v.toNat = i.val :=
  ⟨⟨v.toNat, Nat.lt_succ_of_le legal⟩, rfl⟩

/-- Settles O29: format R raises, SP at 0 raises, or PUSH lowers SP and stores there the register as it then is. -/
theorem pushLowersSpAndStores : Obligations.PushLowersSpAndStores := by
  refine ⟨fun _ _ => rfl, fun _ _ => formatR_raises, fun a s fits legal bottom => ?_, fun a i s fits ha notBottom => ?_⟩
  · obtain ⟨i, ha⟩ := exists_register legal
    exact execPush_stackFault fits ha bottom
  · obtain ⟨sp, down⟩ := stepDown_isSome_of_ne notBottom
    have newSp : sp.toNat = s.sp.toNat - 1 := Nat.eq_sub_of_add_eq (stepDown_eq_some.mp down)
    obtain ⟨stored, others⟩ := State.read_store (s.setSp sp) sp ((s.setSp sp).reg i)
    rw [← newSp]
    refine ⟨_, execPush_stores fits ha down, ?_, stored, advance_pc_toNat ?_,
      sameRegsExcept_setReg s Config.spIndex sp, others, rfl, ⟨rfl, rfl⟩, rfl⟩
    · rw [State.advance_sp, State.store_sp, State.sp_setSp]
    · rw [State.store_pc, State.setSp_pc]; omega

/-- POP writes SP, pc and its register alone. -/
theorem pop_frame {s : State} (i : Fin 8) (v sp : Byte) (fits : s.pc.toNat ≤ 254) :
    (((s.setReg i v).setSp sp).advance 2).sp = sp ∧
    (((s.setReg i v).setSp sp).advance 2).pc.toNat = s.pc.toNat + 2 ∧
    SameRegsExcept [i, 7] s (((s.setReg i v).setSp sp).advance 2) := by
  refine ⟨?_, advance_pc_toNat ?_, fun r other => ?_⟩
  · rw [State.advance_sp, State.sp_setSp]
  · rw [State.setSp_pc, State.setReg_pc]; omega
  · obtain ⟨notDest, notSp⟩ := not_or.mp (mt List.mem_pair.mpr other)
    rw [State.advance_reg, State.reg_setSp, if_neg notSp, State.reg_setReg_other s v notDest]

/-- Settles O30: format R raises, the value that would go up at 255 raises, or POP writes the register and SP. -/
theorem popLoadsAndRaisesSp : Obligations.PopLoadsAndRaisesSp := by
  refine ⟨fun _ _ => rfl, fun _ _ => formatR_raises, fun a s fits notSp top => ?_, fun a s fits isSp top => ?_,
    fun a v i s fits ha notSp notTop popped => ?_, fun a v s fits isSp popped notTop => ?_⟩
  · obtain ⟨i, ha⟩ := exists_register notSp.le
    have other : i ≠ 7 := by rintro rfl; exact absurd ha notSp.ne
    exact execPop_stackFault fits ha (by rwa [State.popBase_of_ne other])
  · exact execPop_stackFault (i := 7) fits isSp (by rw [State.popBase_sp, State.load_of_read top]; rfl)
  · obtain ⟨sp, up⟩ := stepUp_isSome_of_ne notTop
    have loaded := execPop_loads fits ha ((congrArg stepUp (State.popBase_of_ne notSp)).trans up)
    rw [State.load_of_read popped] at loaded
    obtain ⟨newSp, advanced, others⟩ := pop_frame i v sp fits
    refine ⟨_, loaded, ?_, by rw [newSp, stepUp_eq_some.mp up], advanced, others, fun _ => rfl, rfl, ⟨rfl, rfl⟩, rfl⟩
    rw [State.advance_reg, State.reg_setSp, if_neg notSp, State.reg_setReg_same]
  · have notTop : v.toNat ≠ 255 := fun top => notTop (BitVec.eq_of_toNat_eq top)
    obtain ⟨sp, up⟩ := stepUp_isSome_of_ne notTop
    have loaded := execPop_loads (i := 7) (sp := sp) fits isSp (by rwa [State.popBase_sp, State.load_of_read popped])
    obtain ⟨newSp, advanced, others⟩ := pop_frame 7 (s.load s.sp) sp fits
    exact ⟨_, loaded, by rw [newSp, stepUp_eq_some.mp up], advanced, fun r notSp => others r (by simpa using notSp),
      fun _ => rfl, rfl, ⟨rfl, rfl⟩, rfl⟩

/-- Settles O31: format R raises, SP at 0 raises, a return address of 256 raises, or CALL stores it and jumps. -/
theorem callPushesTheReturnAddressAndJumps : Obligations.CallPushesTheReturnAddressAndJumps := by
  refine ⟨fun _ _ => rfl, fun _ _ => formatR_raises, fun a s fits legal bottom => ?_,
    fun a s last legal notBottom => ?_, fun a i s fits ha notBottom => ?_⟩
  · obtain ⟨i, ha⟩ := exists_register legal
    exact execCall_stackFault fits ha bottom
  · obtain ⟨i, ha⟩ := exists_register legal
    exact execCall_no_return_address last.le ha notBottom last
  · obtain ⟨sp, down⟩ := stepDown_isSome_of_ne notBottom
    have newSp : sp.toNat = s.sp.toNat - 1 := Nat.eq_sub_of_add_eq (stepDown_eq_some.mp down)
    obtain ⟨stored, others⟩ := State.read_store (s.setSp sp) sp (BitVec.ofNat 8 (s.pc.toNat + 2))
    rw [← newSp]
    refine ⟨_, _, execCall_calls (by omega) ha down fits, ?_, stored, ?_, zext9_toNat _,
      sameRegsExcept_setReg s Config.spIndex sp, others, rfl, ⟨rfl, rfl⟩, rfl⟩
    · rw [State.jumpTo_sp, State.store_sp, State.sp_setSp]
    · exact (BitVec.toNat_ofNat _ _).trans (Nat.mod_eq_of_lt (by omega))

end Sys2Proof.Machine
end

section
/-! Faults (spec/60_exceptions.md R183, R185, R187, spec/40_step_cycle.md R118): which cause an instruction raises,
that a raise is precise, and that a terminal state stays. -/

namespace Sys2Proof.Machine

/-! ### The stack check -/

theorem byte_beq_iff {v w : Byte} : (v == w) = true ↔ v.toNat = w.toNat :=
  beq_iff_eq.trans BitVec.toNat_inj.symm

theorem stackLeavesMemory_push {s : State} {a : Byte} : s.stackLeavesMemory .push a = true ↔ s.sp.toNat = 0 :=
  byte_beq_iff

theorem stackLeavesMemory_call {s : State} {a : Byte} : s.stackLeavesMemory .call a = true ↔ s.sp.toNat = 0 :=
  byte_beq_iff

theorem stackLeavesMemory_ret {s : State} {a : Byte} : s.stackLeavesMemory .ret a = true ↔ s.sp.toNat = 255 :=
  byte_beq_iff

theorem stackLeavesMemory_pop_sp {s : State} {a : Byte} (isSp : a.toNat = 7) :
    s.stackLeavesMemory .pop a = true ↔ (s.load s.sp).toNat = 255 := by
  have named : (a == 7) = true := byte_beq_iff.mpr isSp
  simp only [State.stackLeavesMemory, if_pos named]
  exact byte_beq_iff

theorem stackLeavesMemory_pop_other {s : State} {a : Byte} (notSp : a.toNat ≠ 7) :
    s.stackLeavesMemory .pop a = true ↔ s.sp.toNat = 255 := by
  have notNamed : ¬ (a == 7) = true := mt byte_beq_iff.mp notSp
  simp only [State.stackLeavesMemory, if_neg notNamed]
  exact byte_beq_iff

theorem stackLeavesMemory_pop {s : State} {a : Byte} {i : Fin 8} (ha : a.toNat = i.val) :
    s.stackLeavesMemory .pop a = true ↔ (s.popBase i).toNat = 255 := by
  by_cases isSp : i = 7
  · subst isSp
    rw [stackLeavesMemory_pop_sp ha, State.popBase_sp]
  · rw [stackLeavesMemory_pop_other fun seven => isSp (Fin.ext (ha.symm.trans seven)), State.popBase_of_ne isSp]

/-! ### What an instruction in memory answers -/

/-- The register operands are `a` in every format but Z, and `b` in format RR. -/
theorem wellFormed_instrOf {m : Mnemonic} {a b : Byte} :
    (instrOf m a b).wellFormed = true ↔ (m.format ≠ .z → a.toNat ≤ 7) ∧ (m.format = .rr → b.toNat ≤ 7) := by
  cases m <;> simp [Instr.wellFormed, instrOf, Instr.registerOperands, legalRegister, Mnemonic.format, Nat.lt_succ_iff]

theorem exec_of_ill_formed {i : Instr} {s : State} (illFormed : i.wellFormed = false) :
    exec i s = raise .outOfBounds s := by
  obtain ⟨v, operand, illegal⟩ := List.all_eq_false.mp illFormed
  exact exec_of_illegal_register (i := i) ⟨v, operand, Nat.not_lt.mp (mt decide_eq_true illegal)⟩

section
variable {m : Mnemonic} {a b : Byte} {s : State} (fits : s.pc.toNat ≤ 256 - m.length)
  (legal : (instrOf m a b).wellFormed = true)
include fits legal

theorem exec_of_stack_leaves (leaves : s.stackLeavesMemory m a = true) :
    exec (instrOf m a b) s = raise .stackFault s := by
  obtain ⟨firstLegal, -⟩ := wellFormed_instrOf.mp legal
  cases m with
  | push =>
    obtain ⟨i, ha⟩ := exists_register (firstLegal nofun)
    exact execPush_stackFault fits ha (stackLeavesMemory_push.mp leaves)
  | pop =>
    obtain ⟨i, ha⟩ := exists_register (firstLegal nofun)
    exact execPop_stackFault fits ha ((stackLeavesMemory_pop ha).mp leaves)
  | call =>
    obtain ⟨i, ha⟩ := exists_register (firstLegal nofun)
    exact execCall_stackFault fits ha (stackLeavesMemory_call.mp leaves)
  | ret => exact execRet_stackFault fits (stackLeavesMemory_ret.mp leaves)
  | hlt | ldi | prn | mul | add | cmp | jmp | jeq | jne => cases leaves

theorem exec_completes (stays : ¬ s.stackLeavesMemory m a = true) (returns : ¬ (m = .call ∧ s.pc.toNat + 2 > 255)) :
    ∃ t, exec (instrOf m a b) s = .next t ∧ Effect (instrOf m a b) s t := by
  obtain ⟨firstLegal, secondLegal⟩ := wellFormed_instrOf.mp legal
  have first (hasFirst : m.format ≠ .z) := exists_register (firstLegal hasFirst)
  have second (hasSecond : m.format = .rr) := exists_register (secondLegal hasSecond)
  cases m with
  | hlt => exact ⟨_, formatZ_executes fits, .hlt fits⟩
  | ldi =>
    obtain ⟨i, ha⟩ := first nofun
    exact ⟨_, formatRI_executes fits ha, .ldi fits ha⟩
  | prn =>
    obtain ⟨i, ha⟩ := first nofun
    exact ⟨_, formatR_executes fits ha, .prn fits ha⟩
  | mul =>
    obtain ⟨⟨i, ha⟩, ⟨j, hb⟩⟩ := And.intro (first nofun) (second rfl)
    exact ⟨_, formatRR_executes fits ha hb, .mul fits ha hb⟩
  | add =>
    obtain ⟨⟨i, ha⟩, ⟨j, hb⟩⟩ := And.intro (first nofun) (second rfl)
    exact ⟨_, formatRR_executes fits ha hb, .add fits ha hb⟩
  | cmp =>
    obtain ⟨⟨i, ha⟩, ⟨j, hb⟩⟩ := And.intro (first nofun) (second rfl)
    exact ⟨_, formatRR_executes fits ha hb, .cmp fits ha hb⟩
  | push =>
    obtain ⟨i, ha⟩ := first nofun
    obtain ⟨sp, down⟩ := stepDown_isSome_of_ne (mt stackLeavesMemory_push.mpr stays)
    exact ⟨_, execPush_stores fits ha down, .push fits ha (stepDown_eq_some.mp down)⟩
  | pop =>
    obtain ⟨i, ha⟩ := first nofun
    obtain ⟨sp, up⟩ := stepUp_isSome_of_ne (mt (stackLeavesMemory_pop ha).mpr stays)
    exact ⟨_, execPop_loads fits ha up, .pop fits ha (stepUp_eq_some.mp up)⟩
  | call =>
    obtain ⟨i, ha⟩ := first nofun
    obtain ⟨sp, down⟩ := stepDown_isSome_of_ne (mt stackLeavesMemory_call.mpr stays)
    have inMemory : s.pc.toNat ≤ 253 := by simpa using returns
    exact ⟨_, execCall_calls fits ha down inMemory, .call inMemory ha (stepDown_eq_some.mp down)⟩
  | ret =>
    obtain ⟨sp, up⟩ := stepUp_isSome_of_ne (mt (stackLeavesMemory_ret (a := a)).mpr stays)
    exact ⟨_, execRet_pops fits up, .ret fits (stepUp_eq_some.mp up)⟩
  | jmp =>
    obtain ⟨i, ha⟩ := first nofun
    exact ⟨_, formatR_executes fits ha, .jmp fits ha⟩
  | jeq =>
    obtain ⟨i, ha⟩ := first nofun
    exact ⟨_, formatR_executes fits ha, .jeq fits ha⟩
  | jne =>
    obtain ⟨i, ha⟩ := first nofun
    exact ⟨_, formatR_executes fits ha, .jne fits ha⟩

/-- From a clear fault latch, an instruction in memory with legal operands ends with the stack fault, with the fault of
CALL's return address, or with none. -/
theorem exec_fault_of_legal {t : State} (noFault : s.fault = none) (executed : exec (instrOf m a b) s = .next t) :
    t.fault = if s.stackLeavesMemory m a then some .stackFault
      else if m = .call ∧ s.pc.toNat + 2 > 255 then some .outOfBounds else none := by
  split
  next leaves =>
    cases executed.symm.trans (exec_of_stack_leaves fits legal leaves)
    rfl
  next stays =>
    split
    next noReturn =>
      obtain ⟨rfl, above⟩ := noReturn
      obtain ⟨firstLegal, -⟩ := wellFormed_instrOf.mp legal
      obtain ⟨i, ha⟩ := exists_register (firstLegal nofun)
      have inMemory : s.pc.toNat ≤ 254 := fits
      have raised := execCall_no_return_address inMemory ha (mt stackLeavesMemory_call.mpr stays) (by omega)
      cases executed.symm.trans raised
      rfl
    next returns =>
      obtain ⟨t', executed', effect⟩ := exec_completes fits legal stays returns
      cases executed.symm.trans executed'
      exact effect.fault_eq.trans noFault

end

/-- Where SP would leave memory, told by the instruction. -/
theorem stackLeavesMemory_iff {s : State} {m : Mnemonic} {a b : Byte} :
    s.stackLeavesMemory m a = true ↔
      ((∃ v, instrOf m a b = .push v ∨ instrOf m a b = .call v) ∧ s.sp.toNat = 0) ∨
      ((instrOf m a b = .ret ∨ ∃ v, instrOf m a b = .pop v ∧ v.toNat ≠ 7) ∧ s.sp.toNat = 255) ∨
      (∃ v, instrOf m a b = .pop v ∧ v.toNat = 7 ∧ s.mem.read s.sp.toNat = some 255) := by
  cases m with
  | push => simp [instrOf, stackLeavesMemory_push]
  | call => simp [instrOf, stackLeavesMemory_call]
  | ret => simp [instrOf, stackLeavesMemory_ret]
  | pop =>
    by_cases isSp : a.toNat = 7
    · have loaded : (s.load s.sp).toNat = 255 ↔ s.mem.read s.sp.toNat = some 255 := by
        rw [Memory.read_of_lt s.mem s.sp.isLt, Option.some.injEq]
        exact BitVec.toNat_inj (y := 255)
      rw [stackLeavesMemory_pop_sp isSp, loaded]
      simp [instrOf, isSp]
    · rw [stackLeavesMemory_pop_other isSp]
      simp [instrOf, isSp]
  | hlt | ldi | prn | mul | add | cmp | jmp | jeq | jne => simp [instrOf, State.stackLeavesMemory]

/-- LEN is at most 3, so that an instruction which begins at 256 - LEN or below lies in memory. -/
theorem fits_iff {s : State} (m : Mnemonic) : s.pc.toNat + m.length - 1 ≤ 255 ↔ s.pc.toNat ≤ 256 - m.length := by
  have := length_pos m
  have := length_le_three m
  omega

/-- Settles O47: by `exec_fault_of_legal` the stack fault is raised exactly where the stack check fails. -/
theorem stackFaultExactlyWhereSpLeavesMemory : Obligations.StackFaultExactlyWhereSpLeavesMemory := by
  intro i s t noFault fits legal executed
  obtain ⟨m, a, b, rfl⟩ := exists_instrOf i
  rw [mnemonic_instrOf, fits_iff] at fits
  rw [← stackLeavesMemory_iff, exec_fault_of_legal fits legal noFault executed]
  by_cases leaves : s.stackLeavesMemory m a = true
  · simp [leaves]
  · rw [if_neg leaves]
    split <;> simp [leaves]

/-! ### The first cause -/

/-- Once the operand bytes are in memory, the register checks of the priority list are the instruction's legality. -/
theorem firstCause_of_fits {s : State} {c : OpcodeMap} {m : Mnemonic} (inMemory : s.pc.toNat ≤ 255)
    (found : mnemonicOf c (s.byteAt 0) = some m) (fits : s.pc.toNat + m.length - 1 ≤ 255) :
    s.firstCause c =
      if (instrOf m (s.byteAt 1) (s.byteAt 2)).wellFormed then
        if s.stackLeavesMemory m (s.byteAt 1) then some .stackFault
        else if m = .call ∧ s.pc.toNat + 2 > 255 then some .outOfBounds else none
      else some .outOfBounds := by
  simp only [State.firstCause, if_neg (Nat.not_lt.mpr inMemory), found, if_neg (Nat.not_lt.mpr fits),
    wellFormed_instrOf]
  by_cases first : m.format ≠ .z ∧ (s.byteAt 1).toNat > 7
  · rw [if_pos first, if_neg fun legal => Nat.not_le.mpr first.2 (legal.1 first.1)]
  · by_cases second : m.format = .rr ∧ (s.byteAt 2).toNat > 7
    · rw [if_neg first, if_pos second, if_neg fun legal => Nat.not_le.mpr second.2 (legal.2 second.1)]
    · have firstLegal (hasFirst : m.format ≠ .z) := Nat.not_lt.mp fun above => first ⟨hasFirst, above⟩
      have secondLegal (hasSecond : m.format = .rr) := Nat.not_lt.mp fun above => second ⟨hasSecond, above⟩
      rw [if_neg first, if_neg second, if_pos (And.intro firstLegal secondLegal)]

/-- Settles O16: the cases of `stepWith_running_cases` are the causes of the priority list in their order. -/
theorem stepRaisesTheFirstCause : Obligations.StepRaisesTheFirstCause := by
  intro c d s running
  obtain ⟨-, noFault⟩ := terminal_eq_false.mp running
  rcases stepWith_running_cases c running with
    ⟨above, stepped⟩ | ⟨inMemory, unknown, stepped⟩ | ⟨m, inMemory, found, short, stepped⟩ |
    ⟨m, inMemory, found, fits, stepped⟩
  · exact ⟨_, stepped d, (if_pos above).symm⟩
  · refine ⟨_, stepped d, ?_⟩
    simp only [State.firstCause, if_neg (Nat.not_lt.mpr inMemory), unknown, State.withFault_fault]
  · refine ⟨_, stepped d, ?_⟩
    simp only [State.firstCause, if_neg (Nat.not_lt.mpr inMemory), found, if_pos short, State.withFault_fault]
  · rw [stepped d, firstCause_of_fits inMemory found fits]
    cases legal : (instrOf m (s.byteAt 1) (s.byteAt 2)).wellFormed with
    | false => exact ⟨_, exec_of_ill_formed legal, rfl⟩
    | true =>
      obtain ⟨t, executed⟩ := exec_has_next (instrOf m (s.byteAt 1) (s.byteAt 2)) s
      exact ⟨t, executed, exec_fault_of_legal ((fits_iff m).mp fits) legal noFault executed⟩

/-- Settles O17: a step that does not raise has an instruction's effect, which keeps the clear fault latch. -/
theorem raisingStepChangesOnlyTheFaultLatch : Obligations.RaisingStepChangesOnlyTheFaultLatch := by
  intro c d s t k running stepped fault
  obtain ⟨-, noFault⟩ := terminal_eq_false.mp running
  rcases stepWith_raises_or_effect stepped with ⟨k', rfl⟩ | ⟨i, -, effect⟩
  · cases fault
    rfl
  · cases fault.symm.trans (effect.fault_eq.trans noFault)

/-- Settles O18: a step answers the stop report, which each latch makes. -/
theorem terminalStateHasNoStep : Obligations.TerminalStateHasNoStep := by
  refine fun c d s => ⟨fun k fault => ?_, fun noFault halted => ?_⟩
  · simp only [stepWith, State.stopReport, fault]
  · simp only [stepWith, State.stopReport, noFault, halted, if_true]

/-! ### The end of memory -/

/-- The instructions that go on with the one after them: no control transfer, or a jump that is not taken. -/
def Sequential (s : State) (m : Mnemonic) : Prop :=
  m ∈ [.ldi, .prn, .mul, .add, .push, .pop, .cmp] ∨
    (m = .jeq ∧ s.fl.getLsbD 0 = false) ∨ (m = .jne ∧ s.fl.getLsbD 0 = true)

/-- A sequential instruction has an operand, does not call and does not halt. -/
theorem Sequential.mnemonic {s : State} {m : Mnemonic} (sequential : Sequential s m) :
    1 < m.length ∧ m ≠ .call ∧ m ≠ .hlt := by
  rcases sequential with listed | ⟨rfl, -⟩ | ⟨rfl, -⟩
  · revert listed
    cases m <;> decide
  · decide
  · decide

theorem Effect.pc_of_sequential {i : Instr} {s t : State} (effect : Effect i s t)
    (sequential : Sequential s i.mnemonic) : t.pc.toNat = s.pc.toNat + i.mnemonic.length := by
  obtain ⟨-, advanced | ⟨v, -, rfl | ⟨a, rfl | rfl | rfl | rfl⟩⟩⟩ := effect.pcMoves
  · exact advanced
  · simp [Sequential, Instr.mnemonic] at sequential
  · simp [Sequential, Instr.mnemonic] at sequential
  · simp [Sequential, Instr.mnemonic] at sequential
  · have notEqual : flagE s.fl = false := by simpa [Sequential, Instr.mnemonic, flagE] using sequential
    cases effect with
    | jeq fits =>
      rw [notEqual, if_neg Bool.false_ne_true]
      exact advance_pc_toNat (by omega)
  · have equal : flagE s.fl = true := by simpa [Sequential, Instr.mnemonic, flagE] using sequential
    cases effect with
    | jne fits =>
      rw [equal, if_pos rfl]
      exact advance_pc_toNat (by omega)

/-- What fetch and decode answer is the mnemonic at pc with the latched operand bytes. -/
theorem fetchDecode_eq_ok {s : State} {c : OpcodeMap} {d : Nat → Byte} {i : Instr}
    (fetched : s.fetchDecode c d = .ok i) : ∃ m, i = instrOf m (s.operandLatch d 1) (s.operandLatch d 2) := by
  rcases fetchDecode_cases s c d with ⟨-, e⟩ | ⟨-, -, e⟩ | ⟨m, -, -, e⟩
  · cases fetched.symm.trans e
  · cases fetched.symm.trans e
  · exact ⟨m, Except.ok.inj (fetched.symm.trans e)⟩

/-- Settles O21: the instruction completes, moves pc by LEN to 256, and the next fetch raises. -/
theorem instructionEndingAt255ThenFetchFaults : Obligations.InstructionEndingAt255ThenFetchFaults := by
  intro c d s i running fetched legal stays ends sequential
  obtain ⟨notHalted, noFault⟩ := terminal_eq_false.mp running
  obtain ⟨m, rfl⟩ := fetchDecode_eq_ok fetched
  rw [mnemonic_instrOf] at ends stays
  have kind : Sequential s m := by rwa [mnemonic_instrOf] at sequential
  obtain ⟨hasFirst, notCall, notHlt⟩ := kind.mnemonic
  have firstByte : s.operandLatch d 1 = s.byteAt 1 := operandLatch_in_memory (by omega)
  rw [← firstByte] at stays
  obtain ⟨t, executed, effect⟩ := exec_completes (by omega) legal (Bool.eq_false_iff.mp stays) (fun h => notCall h.1)
  have completes : t.fault = none := effect.fault_eq.trans noFault
  have goesOn : t.halted = false := (effect.halted_of_ne_hlt (mt instrOf_eq_hlt.mp notHlt)).trans notHalted
  have pcAtEnd : t.pc.toNat = 256 := by rw [effect.pc_of_sequential sequential, mnemonic_instrOf, ends]
  exact ⟨t, (stepWith_of_fetched running fetched).trans executed, completes, pcAtEnd,
    fetchAbove255RaisesOutOfBounds c d t (terminal_eq_false.mpr ⟨goesOn, completes⟩) (by omega)⟩

end Sys2Proof.Machine
end

section
/-! Laws of several instructions (spec/43_stack.md laws of the pair, spec/44_control_flow.md, spec/20_memory.md section
8): each is the instructions' own statements, one after the other. -/

namespace Sys2Proof.Machine

/-! ### From one step to the next -/

theorem Memory.lt_of_read {m : Memory} {a : Nat} {v : Byte} (h : m.read a = some v) : a < 256 := by
  by_contra outside
  rw [read_of_ge m (Nat.not_lt.mp outside)] at h
  cases h

/-- A step of an instruction of two bytes. -/
theorem stepWith_of_two_bytes {s : State} {c : OpcodeMap} (d : Nat → Byte) (m : Mnemonic) {a : Byte}
    (twoBytes : m.length = 2) (running : s.terminal = false) (opcode : s.mem.read s.pc.toNat = some (c.byte m))
    (operand : s.mem.read (s.pc.toNat + 1) = some a) : stepWith c d s = exec (instrOf m a 0) s :=
  stepWith_of_bytes d running opcode (fun _ => operand) fun third => absurd twoBytes third.ne'

theorem SameLatches.terminal {s t : State} (same : SameLatches s t) (running : s.terminal = false) :
    t.terminal = false := by
  obtain ⟨halted, fault⟩ := same
  rwa [State.terminal, halted, fault]

theorem SameLatches.trans {s t u : State} (first : SameLatches s t) (second : SameLatches t u) : SameLatches s u :=
  ⟨second.1.trans first.1, second.2.trans first.2⟩

/-- SP down and up again is SP as it was. -/
theorem sp_restored {s t u : State} (notBottom : s.sp.toNat ≠ 0) (down : t.sp.toNat = s.sp.toNat - 1)
    (up : u.sp.toNat = t.sp.toNat + 1) : u.reg 7 = s.reg 7 :=
  BitVec.eq_of_toNat_eq (up.trans (by omega : t.sp.toNat + 1 = s.sp.toNat))

/-! ### The obligations -/

/-- Settles O37: PUSH stores the register at SP - 1, and POP loads it from there. -/
theorem pushThenPopRestoresTheRegister : Obligations.PushThenPopRestoresTheRegister := by
  intro c d a r s running ha notSp notBottom pushByte pushReg popByte popReg notPop notPopReg
  obtain ⟨-, -, -, pushes⟩ := pushLowersSpAndStores
  obtain ⟨-, -, -, -, pops, -⟩ := popLoadsAndRaisesSp
  have inMemory := Memory.lt_of_read popReg
  obtain ⟨t, pushed, spDown, stored, pcPush, regsPush, memPush, flPush, latchesPush, outPush⟩ :=
    pushes a r s (by omega) ha notBottom
  have kept : t.reg r = s.reg r := regsPush r (by simpa using notSp)
  obtain ⟨u, popped, loaded, spUp, pcPop, regsPop, memPop, flPop, latchesPop, outPop⟩ :=
    pops a (t.reg r) r t (by omega) ha notSp (by have := s.sp.isLt; omega) (by rw [spDown, stored])
  have popByte' : t.mem.read t.pc.toNat = some (c.byte .pop) := by rw [pcPush, memPush _ (by omega), popByte]
  have popReg' : t.mem.read (t.pc.toNat + 1) = some a := by
    rw [pcPush]
    exact (memPush _ (by omega)).trans popReg
  refine ⟨t, u, (stepWith_of_two_bytes d .push rfl running pushByte pushReg).trans pushed,
    (stepWith_of_two_bytes d .pop rfl (latchesPush.terminal running) popByte' popReg').trans popped, fun q _ => ?_, ?_,
    fun b other => (memPop b).trans (memPush b other), by rw [pcPop, pcPush], flPop.trans flPush,
    latchesPush.trans latchesPop, outPop.trans outPush⟩
  · by_cases isDest : q = r
    · rw [isDest, loaded, kept]
    · by_cases isSp : q = 7
      · rw [isSp]
        exact sp_restored notBottom spDown spUp
      · rw [regsPop q (by simp [isDest, isSp]), regsPush q (by simpa using isSp)]
  · rw [memPop, stored, kept]

/-- Settles O38: CALL stores pc + 2 at SP - 1, and RET loads it from there. -/
theorem callThenRetReturnsPastTheCall : Obligations.CallThenRetReturnsPastTheCall := by
  intro c d a i s running fits ha notSp notBottom callByte callReg retByte notOverwritten
  obtain ⟨-, -, -, -, calls⟩ := callPushesTheReturnAddressAndJumps
  obtain ⟨-, -, -, returns⟩ := retJumpsToThePoppedByte
  obtain ⟨t, v, called, spDown, stored, returnAddress, target, regsCall, memCall, flCall, latchesCall, outCall⟩ :=
    calls a i s fits ha notBottom
  have pcCall : t.pc.toNat = (s.reg i).toNat := by rw [target, regsCall i (by simpa using notSp)]
  have pcInMemory : t.pc.toNat ≤ 255 := by have := (s.reg i).isLt; omega
  obtain ⟨u, returned, pcRet, spUp, regsRet, memRet, flRet, latchesRet, outRet⟩ :=
    returns v t pcInMemory (by have := s.sp.isLt; omega) (by rw [spDown, stored])
  have retByte' : t.mem.read t.pc.toNat = some (c.byte .ret) := by rw [pcCall, memCall _ notOverwritten, retByte]
  have retStep : stepWith c d t = exec .ret t := stepWith_of_opcode d (latchesCall.terminal running) retByte'
  refine ⟨t, u, (stepWith_of_two_bytes d .call rfl running callByte callReg).trans called, retStep.trans returned,
    pcRet.trans returnAddress, fun q _ => ?_, fun b other => (memRet b).trans (memCall b other), flRet.trans flCall,
    latchesCall.trans latchesRet, outRet.trans outCall⟩
  by_cases isSp : q = 7
  · rw [isSp]
    exact sp_restored notBottom spDown spUp
  · rw [regsRet q (by simpa using isSp), regsCall q (by simpa using isSp)]

/-- Settles O39: PUSH leaves pc at the cell it stored to, and the next step reads its opcode there. -/
theorem nextFetchSeesTheStore : Obligations.NextFetchSeesTheStore := by
  intro c d a i m s running ha notSp spAt pushByte pushReg isOpcode
  obtain ⟨-, -, -, pushes⟩ := pushLowersSpAndStores
  have := s.sp.isLt
  obtain ⟨t, pushed, -, stored, pcPush, regsPush, -, -, latchesPush, -⟩ := pushes a i s (by omega) ha (by omega)
  have stillRunning := latchesPush.terminal running
  have nextByte : t.mem.read t.pc.toNat = some (c.byte m) := by
    rw [← isOpcode, ← regsPush i (by simpa using notSp), ← stored, pcPush, spAt]
    rfl
  exact ⟨t, (stepWith_of_two_bytes d .push rfl running pushByte pushReg).trans pushed, stillRunning,
    stepWith_of_opcode d stillRunning nextByte⟩

/-- A running state that steps to itself is where every run stays. -/
theorem runTransaction_of_fixed {c : OpcodeMap} {d : Nat → Byte} {s : State} (running : s.terminal = false)
    (fixed : stepWith c d s = .next s) (n : Nat) : s.runTransaction c d n = (s, none) := by
  induction n with
  | zero => exact runTransaction_zero c d running
  | succ n ih => rw [runTransaction_succ c d n running, stepTransaction_of_next fixed, ih]

/-- Settles O40: the jump changes pc alone, to the value it has. -/
theorem jumpToItselfNeverEnds : Obligations.JumpToItselfNeverEnds := by
  intro c d a i s running ha jmpByte jmpReg itself
  have inMemory := Memory.lt_of_read jmpReg
  have samePc : zext9 (s.reg i) = s.pc := BitVec.eq_of_toNat_eq ((zext9_toNat _).trans itself)
  have jumped : exec (.jmp a) s = .next (s.jumpTo (s.reg i)) := formatR_executes (by omega) ha
  rw [State.jumpTo, samePc] at jumped
  exact runTransaction_of_fixed running ((stepWith_of_two_bytes d .jmp rfl running jmpByte jmpReg).trans jumped)

end Sys2Proof.Machine
end

section
/-! What the whole machine leaves alone (spec/40_step_cycle.md section 2, write table, spec/10_state.md R34, R38). -/

namespace Sys2Proof.Machine

/-! ### The write table -/

/-- Only PUSH and CALL write memory. -/
theorem Effect.mem_of_noStore {i : Instr} {s t : State} (effect : Effect i s t)
    (noStore : ∀ a, i ≠ .push a ∧ i ≠ .call a) : t.mem = s.mem := by
  cases effect with
  | push => exact absurd rfl (noStore _).1
  | call => exact absurd rfl (noStore _).2
  | jeq | jne => split <;> rfl
  | hlt | ldi | prn | mul | add | pop | ret | cmp | jmp => rfl

/-- Only PRN writes the log, and it appends a register. -/
theorem Effect.out_cases {i : Instr} {s t : State} (effect : Effect i s t) :
    t.out = s.out ∨ ∃ a r, i = .prn a ∧ t.out = s.out ++ [s.reg r] := by
  cases effect with
  | prn => exact .inr ⟨_, _, rfl, rfl⟩
  | jeq | jne => split <;> exact .inl rfl
  | hlt | ldi | mul | add | push | pop | call | ret | cmp | jmp => exact .inl rfl

/-- LDI, MUL, ADD and POP write the register `a` names, and PUSH, POP, CALL and RET write SP. -/
theorem Effect.reg_cases {i : Instr} {s t : State} (effect : Effect i s t) (r : Fin 8) :
    t.reg r = s.reg r ∨
      (r = 7 ∧ (i = .ret ∨ ∃ a, i = .push a ∨ i = .pop a ∨ i = .call a)) ∨
      (∃ a b : Byte, a.toNat = r.val ∧ (i = .ldi a b ∨ i = .mul a b ∨ i = .add a b ∨ i = .pop a)) := by
  cases effect with
  | @ldi _ a b j _ ha | @mul _ a b j _ _ ha | @add _ a b j _ _ ha =>
    by_cases isDest : r = j
    · subst isDest
      exact .inr (.inr ⟨a, b, ha, by simp⟩)
    · exact .inl (State.reg_setReg_other s _ isDest)
  | push | call | ret =>
    by_cases isSp : r = 7
    · exact .inr (.inl ⟨isSp, by simp⟩)
    · exact .inl (State.reg_setReg_other s _ isSp)
  | @pop _ a sp j fits ha =>
    by_cases isSp : r = 7
    · exact .inr (.inl ⟨isSp, by simp⟩)
    · by_cases isDest : r = j
      · subst isDest
        exact .inr (.inr ⟨a, 0, ha, by simp⟩)
      · obtain ⟨-, -, others⟩ := pop_frame j (s.load s.sp) sp fits
        exact .inl (others r (by simp [isDest, isSp]))
  | jeq | jne => split <;> exact .inl rfl
  | hlt | prn | cmp | jmp => exact .inl rfl

/-- Settles O41: a fault writes the fault latch alone, and an effect what the write table lists. -/
theorem onlyTheListedInstructionsWrite : Obligations.OnlyTheListedInstructionsWrite := by
  intro i s t executed
  rcases exec_raises_or_effect executed with ⟨k, rfl⟩ | effect
  · simp [Memory.read]
  refine ⟨fun changed => ?_, fun changed => ?_, fun changed => ?_, fun ⟨a, changed⟩ => ?_, fun r changed => ?_⟩
  · by_contra notCmp
    exact changed (exec_fl_of_ne_cmp executed fun a b isCmp => notCmp ⟨a, b, isCmp⟩)
  · obtain ⟨a, -, isPrn, -⟩ := effect.out_cases.resolve_left changed
    exact ⟨a, isPrn⟩
  · exact not_imp_comm.mp effect.halted_of_ne_hlt changed
  · by_contra noStore
    rw [effect.mem_of_noStore fun a => not_or.mp fun stores => noStore ⟨a, stores⟩] at changed
    exact changed rfl
  · exact (effect.reg_cases r).resolve_left changed

/-- Settles O45: a step keeps FL, or a CMP sets one of the three. -/
theorem flagsStayOneOfThreeAfterCompare : Obligations.FlagsStayOneOfThreeAfterCompare := by
  intro c d s t stepped oneOfThree
  rcases stepWith_raises_or_effect stepped with ⟨k, rfl⟩ | ⟨i, -, effect⟩
  · exact oneOfThree
  · rcases effect.fl_cases with same | compared
    · rwa [same]
    · exact compared

/-! ### The output log -/

/-- The same machine with another log. -/
def State.withOut (s : State) (o : List Byte) : State :=
  { s with out := o }

@[simp] theorem State.withOut_sp (s : State) (o : List Byte) : (s.withOut o).sp = s.sp := rfl
@[simp] theorem State.withOut_load (s : State) (o : List Byte) (a : Byte) : (s.withOut o).load a = s.load a := rfl

/-- Both results are next states, which differ in the log alone. -/
def AgreeUpToOut (r r' : Result) : Prop :=
  ∃ (t : State) (o : List Byte), r = .next t ∧ r' = .next (t.withOut o)

theorem agreeUpToOut_next (t : State) (o : List Byte) : AgreeUpToOut (.next t) (.next (t.withOut o)) :=
  ⟨t, o, rfl, rfl⟩

theorem agreeUpToOut_branch (e : Bool) (t u : State) (o : List Byte) :
    AgreeUpToOut (.next (if e then t else u)) (.next (if e then t.withOut o else u.withOut o)) := by
  cases e
  · exact agreeUpToOut_next u o
  · exact agreeUpToOut_next t o

/-- Executing an instruction from two states that differ in the log alone: no instruction reads it. -/
theorem exec_agreeUpToOut (i : Instr) (s : State) (o : List Byte) :
    AgreeUpToOut (exec i s) (exec i (s.withOut o)) := by
  have raised (k : Fault) : AgreeUpToOut (raise k s) (raise k (s.withOut o)) := agreeUpToOut_next (s.withFault k) o
  cases i with
  | hlt => exact formatZ_related rfl (raised _) (agreeUpToOut_next _ o)
  | ldi a b => exact formatRI_related rfl (raised _) fun _ => agreeUpToOut_next _ o
  | prn a => exact formatR_related rfl (raised _) fun i => agreeUpToOut_next _ (o ++ [s.reg i])
  | mul a b | add a b | cmp a b => exact formatRR_related rfl (raised _) fun _ _ => agreeUpToOut_next _ o
  | jmp a => exact formatR_related rfl (raised _) fun _ => agreeUpToOut_next _ o
  | jeq a | jne a => exact formatR_related rfl (raised _) fun _ => agreeUpToOut_branch (flagE s.fl) _ _ o
  | push a =>
    refine formatR_related rfl (raised _) fun i => ?_
    rw [State.withOut_sp]
    cases stepDown s.sp with
    | none => exact raised _
    | some sp => exact agreeUpToOut_next _ o
  | pop a =>
    refine formatR_related rfl (raised _) fun i => ?_
    simp only [State.withOut_sp, State.withOut_load]
    cases stepUp (if i = Config.spIndex then s.load s.sp else s.sp) with
    | none => exact raised _
    | some sp => exact agreeUpToOut_next _ o
  | call a =>
    refine formatR_related rfl (raised _) fun i => ?_
    rw [State.withOut_sp]
    cases stepDown s.sp with
    | none => exact raised _
    | some sp =>
      change AgreeUpToOut (if _ then _ else _) (if s.pc.toNat + 2 > 255 then _ else _)
      split
      · exact raised _
      · exact agreeUpToOut_next _ o
  | ret =>
    refine formatZ_related rfl (raised _) ?_
    rw [State.withOut_sp]
    cases stepUp s.sp with
    | none => exact raised _
    | some sp => exact agreeUpToOut_next _ o

/-- Settles O46: by `Effect.out_cases` and `exec_agreeUpToOut`. -/
theorem outputLogOnlyGrowsAndIsNeverRead : Obligations.OutputLogOnlyGrowsAndIsNeverRead := by
  refine ⟨fun c d s t stepped => ?_, fun i o s t executed => ?_⟩
  · rcases stepWith_raises_or_effect stepped with ⟨k, rfl⟩ | ⟨i, -, effect⟩
    · exact .inl rfl
    · exact effect.out_cases.imp_right fun ⟨_, r, _, appended⟩ => ⟨r, appended⟩
  · obtain ⟨t', o', executed', executedO⟩ := exec_agreeUpToOut i s o
    cases executed.symm.trans executed'
    exact ⟨_, executedO, rfl⟩

end Sys2Proof.Machine
end
